-- ==== Sys2Proof/Word.lean ====
section
/-! DEFINITION. The two data units of the block: the octet and the word (spec 00_scope.md R9). -/

namespace Sys2Proof

/-- An octet: 8 bits (R9). -/
abbrev Octet := BitVec 8

/-- A word: 16 bits (R9). -/
abbrev Word := BitVec 16

end Sys2Proof
end

