-- ==== Sys2Proof/Syntax.lean ====
section
/-! DEFINITION. The 32 instructions, one constructor per row of spec/opcode_table.json (30_encoding.md R83, R90, R91). -/

namespace Sys2Proof

/-- An instruction with its operands in the order of R91.  `addr`, `count`, `devAddr` and `timeout` are 8-bit
fields, a value has the width of the access, and the integers `bitNum`, `bitStart` (BITPOS, 0 to 15) and
`length` (LENGTH, 0 to 31), which the spec adds and subtracts, are `Nat` with their range in
`Instr.wellFormed` (R82, R86; log 21). -/
inductive Instr where
  | rdba (addr : Octet) (count : BitVec 8)
  | rdwa (addr : Octet) (count : BitVec 8)
  | wrba (addr : Octet) (count : BitVec 8)
  | wrwa (addr : Octet) (count : BitVec 8)
  | rdb (addr : Octet)
  | rdw (addr : Octet)
  | wrb (addr : Octet) (value : Octet)
  | wrw (addr : Octet) (value : Word)
  | rdbitB (addr : Octet) (bitNum : Nat)
  | rdbitW (addr : Octet) (bitNum : Nat)
  | rdbitsB (addr : Octet) (bitStart length : Nat)
  | rdbitsW (addr : Octet) (bitStart length : Nat)
  | wrbitB (addr : Octet) (bitNum : Nat) (value : Bool)
  | wrbitW (addr : Octet) (bitNum : Nat) (value : Bool)
  | wrbitsB (addr : Octet) (bitStart length : Nat) (value : Octet)
  | wrbitsW (addr : Octet) (bitStart length : Nat) (value : Word)
  | xrdba (devAddr addr : Octet) (count : BitVec 8) (timeout : Octet)
  | xrdwa (devAddr addr : Octet) (count : BitVec 8) (timeout : Octet)
  | xwrba (devAddr addr : Octet) (count : BitVec 8) (timeout : Octet)
  | xwrwa (devAddr addr : Octet) (count : BitVec 8) (timeout : Octet)
  | xrdb (devAddr addr : Octet) (timeout : Octet)
  | xrdw (devAddr addr : Octet) (timeout : Octet)
  | xwrb (devAddr addr : Octet) (value : Octet) (timeout : Octet)
  | xwrw (devAddr addr : Octet) (value : Word) (timeout : Octet)
  | xrdbitB (devAddr addr : Octet) (bitNum : Nat) (timeout : Octet)
  | xrdbitW (devAddr addr : Octet) (bitNum : Nat) (timeout : Octet)
  | xrdbitsB (devAddr addr : Octet) (bitStart length : Nat) (timeout : Octet)
  | xrdbitsW (devAddr addr : Octet) (bitStart length : Nat) (timeout : Octet)
  | xwrbitB (devAddr addr : Octet) (bitNum : Nat) (value : Bool) (timeout : Octet)
  | xwrbitW (devAddr addr : Octet) (bitNum : Nat) (value : Bool) (timeout : Octet)
  | xwrbitsB (devAddr addr : Octet) (bitStart length : Nat) (value : Octet) (timeout : Octet)
  | xwrbitsW (devAddr addr : Octet) (bitStart length : Nat) (value : Word) (timeout : Octet)
  deriving DecidableEq, Repr

end Sys2Proof
end

