-- ==== Sys2Proof/WellFormed.lean ====
section
/-! DEFINITION. Which instructions can be assembled: every integer operand fits its field
(30_encoding.md R82, R86, R91: "A numeral that does not fit its field cannot be assembled"). -/

namespace Sys2Proof

/-- BITPOS is a 4-bit field (R82). -/
def fitsBitPos (n : Nat) : Bool := n < 16

/-- LENGTH is a 5-bit field (R82). -/
def fitsLength (n : Nat) : Bool := n < 32

/-- The operands fit their fields.  Nothing else is checked: a descriptor outside the register is a legal
command (R86, R163). -/
def Instr.wellFormed : Instr → Bool
  | .rdba _ _ | .rdwa _ _ | .wrba _ _ | .wrwa _ _ => true
  | .rdb _ | .rdw _ | .wrb _ _ | .wrw _ _ => true
  | .rdbitB _ n | .rdbitW _ n => fitsBitPos n
  | .rdbitsB _ b l | .rdbitsW _ b l => fitsBitPos b && fitsLength l
  | .wrbitB _ n _ | .wrbitW _ n _ => fitsBitPos n
  | .wrbitsB _ b l _ => fitsBitPos b && fitsLength l
  | .wrbitsW _ b l _ => fitsBitPos b && fitsLength l
  | .xrdba _ _ _ _ | .xrdwa _ _ _ _ | .xwrba _ _ _ _ | .xwrwa _ _ _ _ => true
  | .xrdb _ _ _ | .xrdw _ _ _ | .xwrb _ _ _ _ | .xwrw _ _ _ _ => true
  | .xrdbitB _ _ n _ | .xrdbitW _ _ n _ => fitsBitPos n
  | .xrdbitsB _ _ b l _ | .xrdbitsW _ _ b l _ => fitsBitPos b && fitsLength l
  | .xwrbitB _ _ n _ _ | .xwrbitW _ _ n _ _ => fitsBitPos n
  | .xwrbitsB _ _ b l _ _ => fitsBitPos b && fitsLength l
  | .xwrbitsW _ _ b l _ _ => fitsBitPos b && fitsLength l

end Sys2Proof
end

