-- ==== Sys2Proof/Decode.lean ====
section
/-! DEFINITION. Decoding and encoding of the 64-bit command word (30_encoding.md R80 to R90). -/

namespace Sys2Proof

/-- The eight operations of R83. -/
inductive Op where
  | rda | wra | rd1 | wr1 | rdbit | rdbits | wrbit | wrbits
  deriving DecidableEq, Repr

/-- The seven formats of R82. -/
inductive Format where
  | A | R1 | W1 | B | BW | F | FW
  deriving DecidableEq, Repr

/-- Why a command word is illegal (R87, R88). -/
inductive Illegal where
  /-- OP is 0 or 9 to 15. -/
  | noOperation
  /-- Some bit of the must-be-zero range `hi:lo` is one. -/
  | mustBeZero (hi lo : Nat)
  deriving DecidableEq, Repr

/-- The operation of an OP code (R83). -/
def opOf (code : BitVec 4) : Option Op :=
  match code.toNat with
  | 1 => some .rda
  | 2 => some .wra
  | 3 => some .rd1
  | 4 => some .wr1
  | 5 => some .rdbit
  | 6 => some .rdbits
  | 7 => some .wrbit
  | 8 => some .wrbits
  | _ => none

/-- The OP code of an operation (R83). -/
def Op.code : Op → BitVec 4
  | .rda => 1
  | .wra => 2
  | .rd1 => 3
  | .wr1 => 4
  | .rdbit => 5
  | .rdbits => 6
  | .wrbit => 7
  | .wrbits => 8

/-- The format of an operation (R83). -/
def Op.format : Op → Format
  | .rda | .wra => .A
  | .rd1 => .R1
  | .wr1 => .W1
  | .rdbit => .B
  | .rdbits => .F
  | .wrbit => .BW
  | .wrbits => .FW

/-- The must-be-zero ranges `(hi, lo)` of a format with its W bit (R82, R89). -/
def Format.zeroRanges (w : Bool) : Format → List (Nat × Nat)
  | .A => [(47, 24)]
  | .R1 => [(47, 16)]
  | .W1 => if w then [(31, 16)] else [(47, 40), (31, 16)]
  | .B => [(47, 20)]
  | .BW => [(47, 33), (31, 20)]
  | .F => [(47, 29), (23, 20)]
  | .FW => if w then [(31, 29), (23, 20)] else [(47, 40), (31, 29), (23, 20)]

/-- `zero_bits(fmt, w, s)` of R89: bits 7:6, bits 63:48 when S = 0, and those of the format. -/
def zeroRanges (fmt : Format) (w s : Bool) : List (Nat × Nat) :=
  (7, 6) :: ((if s then [] else [(63, 48)]) ++ fmt.zeroRanges w)

/-- Whether bits `hi:lo` of the word are all zero. -/
def rangeZero (c : BitVec 64) (r : Nat × Nat) : Bool := c.extractLsb' r.2 (r.1 - r.2 + 1) == 0

/-! The operand fields (R81, R82), each taken as is (R86). -/

/-- OP. -/
def fieldOp (c : BitVec 64) : BitVec 4 := c.extractLsb' 0 4
/-- W: false = octet, true = word. -/
def fieldW (c : BitVec 64) : Bool := c.getLsbD 4
/-- S: true = compatibility shim. -/
def fieldS (c : BitVec 64) : Bool := c.getLsbD 5
/-- ADDR. -/
def fieldAddr (c : BitVec 64) : Octet := c.extractLsb' 8 8
/-- COUNT. -/
def fieldCount (c : BitVec 64) : BitVec 8 := c.extractLsb' 16 8
/-- BITPOS. -/
def fieldBitPos (c : BitVec 64) : Nat := (c.extractLsb' 16 4).toNat
/-- LENGTH. -/
def fieldLength (c : BitVec 64) : Nat := (c.extractLsb' 24 5).toNat
/-- BVAL. -/
def fieldBval (c : BitVec 64) : Bool := c.getLsbD 32
/-- VALUE of an octet access. -/
def fieldValueB (c : BitVec 64) : Octet := c.extractLsb' 32 8
/-- VALUE of a word access. -/
def fieldValueW (c : BitVec 64) : Word := c.extractLsb' 32 16
/-- DEVADDR. -/
def fieldDevAddr (c : BitVec 64) : Octet := c.extractLsb' 48 8
/-- TIMEOUT. -/
def fieldTimeout (c : BitVec 64) : Octet := c.extractLsb' 56 8

/-- The instruction of a legal word: operation, W and S give the mnemonic, the word its operands (R83, R89). -/
def instrOf (op : Op) (w s : Bool) (c : BitVec 64) : Instr :=
  let a := fieldAddr c
  let d := fieldDevAddr c
  let t := fieldTimeout c
  match op, w, s with
  | .rda, false, false => .rdba a (fieldCount c)
  | .rda, true, false => .rdwa a (fieldCount c)
  | .wra, false, false => .wrba a (fieldCount c)
  | .wra, true, false => .wrwa a (fieldCount c)
  | .rd1, false, false => .rdb a
  | .rd1, true, false => .rdw a
  | .wr1, false, false => .wrb a (fieldValueB c)
  | .wr1, true, false => .wrw a (fieldValueW c)
  | .rdbit, false, false => .rdbitB a (fieldBitPos c)
  | .rdbit, true, false => .rdbitW a (fieldBitPos c)
  | .rdbits, false, false => .rdbitsB a (fieldBitPos c) (fieldLength c)
  | .rdbits, true, false => .rdbitsW a (fieldBitPos c) (fieldLength c)
  | .wrbit, false, false => .wrbitB a (fieldBitPos c) (fieldBval c)
  | .wrbit, true, false => .wrbitW a (fieldBitPos c) (fieldBval c)
  | .wrbits, false, false => .wrbitsB a (fieldBitPos c) (fieldLength c) (fieldValueB c)
  | .wrbits, true, false => .wrbitsW a (fieldBitPos c) (fieldLength c) (fieldValueW c)
  | .rda, false, true => .xrdba d a (fieldCount c) t
  | .rda, true, true => .xrdwa d a (fieldCount c) t
  | .wra, false, true => .xwrba d a (fieldCount c) t
  | .wra, true, true => .xwrwa d a (fieldCount c) t
  | .rd1, false, true => .xrdb d a t
  | .rd1, true, true => .xrdw d a t
  | .wr1, false, true => .xwrb d a (fieldValueB c) t
  | .wr1, true, true => .xwrw d a (fieldValueW c) t
  | .rdbit, false, true => .xrdbitB d a (fieldBitPos c) t
  | .rdbit, true, true => .xrdbitW d a (fieldBitPos c) t
  | .rdbits, false, true => .xrdbitsB d a (fieldBitPos c) (fieldLength c) t
  | .rdbits, true, true => .xrdbitsW d a (fieldBitPos c) (fieldLength c) t
  | .wrbit, false, true => .xwrbitB d a (fieldBitPos c) (fieldBval c) t
  | .wrbit, true, true => .xwrbitW d a (fieldBitPos c) (fieldBval c) t
  | .wrbits, false, true => .xwrbitsB d a (fieldBitPos c) (fieldLength c) (fieldValueB c) t
  | .wrbits, true, true => .xwrbitsW d a (fieldBitPos c) (fieldLength c) (fieldValueW c) t

/-- The decoding procedure of R89, total on all 2^64 words. -/
def decode (c : BitVec 64) : Except Illegal Instr :=
  match opOf (fieldOp c) with
  | none => .error .noOperation
  | some op =>
    match (zeroRanges op.format (fieldW c) (fieldS c)).find? (fun r => !rangeZero c r) with
    | some r => .error (.mustBeZero r.1 r.2)
    | none => .ok (instrOf op (fieldW c) (fieldS c) c)

/-! The encoder: the fields placed, zeros elsewhere (R81, R82, R89).  `mid` is bits 47:16. -/

/-- The whole word from its common fields (R81). -/
def pack (op : Op) (w s : Bool) (addr : Octet) (mid : BitVec 32) (devAddr timeout : Octet) : BitVec 64 :=
  timeout ++ devAddr ++ mid ++ addr ++ 0#2 ++ BitVec.ofBool s ++ BitVec.ofBool w ++ op.code

/-- Format A. -/
def midA (count : BitVec 8) : BitVec 32 := 0#24 ++ count
/-- Format R1. -/
def midR1 : BitVec 32 := 0#32
/-- Format W1, octet. -/
def midW1B (v : Octet) : BitVec 32 := 0#8 ++ v ++ 0#16
/-- Format W1, word. -/
def midW1W (v : Word) : BitVec 32 := v ++ 0#16
/-- Format B. -/
def midB (n : Nat) : BitVec 32 := 0#28 ++ BitVec.ofNat 4 n
/-- Format BW. -/
def midBW (n : Nat) (v : Bool) : BitVec 32 := 0#15 ++ BitVec.ofBool v ++ 0#12 ++ BitVec.ofNat 4 n
/-- Format F. -/
def midF (b l : Nat) : BitVec 32 := 0#19 ++ BitVec.ofNat 5 l ++ 0#4 ++ BitVec.ofNat 4 b
/-- Format FW, octet. -/
def midFWB (b l : Nat) (v : Octet) : BitVec 32 := 0#8 ++ v ++ 0#3 ++ BitVec.ofNat 5 l ++ 0#4 ++ BitVec.ofNat 4 b
/-- Format FW, word. -/
def midFWW (b l : Nat) (v : Word) : BitVec 32 := v ++ 0#3 ++ BitVec.ofNat 5 l ++ 0#4 ++ BitVec.ofNat 4 b

/-- The command word of a well-formed instruction (R89, R90). -/
def encode : Instr → BitVec 64
  | .rdba a n => pack .rda false false a (midA n) 0 0
  | .rdwa a n => pack .rda true false a (midA n) 0 0
  | .wrba a n => pack .wra false false a (midA n) 0 0
  | .wrwa a n => pack .wra true false a (midA n) 0 0
  | .rdb a => pack .rd1 false false a midR1 0 0
  | .rdw a => pack .rd1 true false a midR1 0 0
  | .wrb a v => pack .wr1 false false a (midW1B v) 0 0
  | .wrw a v => pack .wr1 true false a (midW1W v) 0 0
  | .rdbitB a n => pack .rdbit false false a (midB n) 0 0
  | .rdbitW a n => pack .rdbit true false a (midB n) 0 0
  | .rdbitsB a b l => pack .rdbits false false a (midF b l) 0 0
  | .rdbitsW a b l => pack .rdbits true false a (midF b l) 0 0
  | .wrbitB a n v => pack .wrbit false false a (midBW n v) 0 0
  | .wrbitW a n v => pack .wrbit true false a (midBW n v) 0 0
  | .wrbitsB a b l v => pack .wrbits false false a (midFWB b l v) 0 0
  | .wrbitsW a b l v => pack .wrbits true false a (midFWW b l v) 0 0
  | .xrdba d a n t => pack .rda false true a (midA n) d t
  | .xrdwa d a n t => pack .rda true true a (midA n) d t
  | .xwrba d a n t => pack .wra false true a (midA n) d t
  | .xwrwa d a n t => pack .wra true true a (midA n) d t
  | .xrdb d a t => pack .rd1 false true a midR1 d t
  | .xrdw d a t => pack .rd1 true true a midR1 d t
  | .xwrb d a v t => pack .wr1 false true a (midW1B v) d t
  | .xwrw d a v t => pack .wr1 true true a (midW1W v) d t
  | .xrdbitB d a n t => pack .rdbit false true a (midB n) d t
  | .xrdbitW d a n t => pack .rdbit true true a (midB n) d t
  | .xrdbitsB d a b l t => pack .rdbits false true a (midF b l) d t
  | .xrdbitsW d a b l t => pack .rdbits true true a (midF b l) d t
  | .xwrbitB d a n v t => pack .wrbit false true a (midBW n v) d t
  | .xwrbitW d a n v t => pack .wrbit true true a (midBW n v) d t
  | .xwrbitsB d a b l v t => pack .wrbits false true a (midFWB b l v) d t
  | .xwrbitsW d a b l v t => pack .wrbits true true a (midFWW b l v) d t

/-! The instruction list of R90. -/

/-- One row of the instruction list (R90). -/
structure Row where
  mnemonic : String
  pattern : BitVec 64
  mask : BitVec 64
  deriving DecidableEq, Repr

/-- The array and single-register rows of R90. -/
def opcodeRowsAccess : List Row :=
  [⟨"RDBA", 0x0000000000000001, 0xFFFFFFFFFF0000FF⟩,
   ⟨"RDWA", 0x0000000000000011, 0xFFFFFFFFFF0000FF⟩,
   ⟨"WRBA", 0x0000000000000002, 0xFFFFFFFFFF0000FF⟩,
   ⟨"WRWA", 0x0000000000000012, 0xFFFFFFFFFF0000FF⟩,
   ⟨"RDB", 0x0000000000000003, 0xFFFFFFFFFFFF00FF⟩,
   ⟨"RDW", 0x0000000000000013, 0xFFFFFFFFFFFF00FF⟩,
   ⟨"WRB", 0x0000000000000004, 0xFFFFFF00FFFF00FF⟩,
   ⟨"WRW", 0x0000000000000014, 0xFFFF0000FFFF00FF⟩]

/-- The bit and field rows of R90. -/
def opcodeRowsBit : List Row :=
  [⟨"RDBIT.B", 0x0000000000000005, 0xFFFFFFFFFFF000FF⟩,
   ⟨"RDBIT.W", 0x0000000000000015, 0xFFFFFFFFFFF000FF⟩,
   ⟨"RDBITS.B", 0x0000000000000006, 0xFFFFFFFFE0F000FF⟩,
   ⟨"RDBITS.W", 0x0000000000000016, 0xFFFFFFFFE0F000FF⟩,
   ⟨"WRBIT.B", 0x0000000000000007, 0xFFFFFFFEFFF000FF⟩,
   ⟨"WRBIT.W", 0x0000000000000017, 0xFFFFFFFEFFF000FF⟩,
   ⟨"WRBITS.B", 0x0000000000000008, 0xFFFFFF00E0F000FF⟩,
   ⟨"WRBITS.W", 0x0000000000000018, 0xFFFF0000E0F000FF⟩]

/-- The shim array and single-register rows of R90. -/
def opcodeRowsShimAccess : List Row :=
  [⟨"XRDBA", 0x0000000000000021, 0x0000FFFFFF0000FF⟩,
   ⟨"XRDWA", 0x0000000000000031, 0x0000FFFFFF0000FF⟩,
   ⟨"XWRBA", 0x0000000000000022, 0x0000FFFFFF0000FF⟩,
   ⟨"XWRWA", 0x0000000000000032, 0x0000FFFFFF0000FF⟩,
   ⟨"XRDB", 0x0000000000000023, 0x0000FFFFFFFF00FF⟩,
   ⟨"XRDW", 0x0000000000000033, 0x0000FFFFFFFF00FF⟩,
   ⟨"XWRB", 0x0000000000000024, 0x0000FF00FFFF00FF⟩,
   ⟨"XWRW", 0x0000000000000034, 0x00000000FFFF00FF⟩]

/-- The shim bit and field rows of R90. -/
def opcodeRowsShimBit : List Row :=
  [⟨"XRDBIT.B", 0x0000000000000025, 0x0000FFFFFFF000FF⟩,
   ⟨"XRDBIT.W", 0x0000000000000035, 0x0000FFFFFFF000FF⟩,
   ⟨"XRDBITS.B", 0x0000000000000026, 0x0000FFFFE0F000FF⟩,
   ⟨"XRDBITS.W", 0x0000000000000036, 0x0000FFFFE0F000FF⟩,
   ⟨"XWRBIT.B", 0x0000000000000027, 0x0000FFFEFFF000FF⟩,
   ⟨"XWRBIT.W", 0x0000000000000037, 0x0000FFFEFFF000FF⟩,
   ⟨"XWRBITS.B", 0x0000000000000028, 0x0000FF00E0F000FF⟩,
   ⟨"XWRBITS.W", 0x0000000000000038, 0x00000000E0F000FF⟩]

/-- The 32 rows of R90. -/
def opcodeTable : List Row :=
  opcodeRowsAccess ++ opcodeRowsBit ++ opcodeRowsShimAccess ++ opcodeRowsShimBit

/-- The mnemonic of an instruction (R83, R90). -/
def Instr.mnemonic : Instr → String
  | .rdba _ _ => "RDBA"
  | .rdwa _ _ => "RDWA"
  | .wrba _ _ => "WRBA"
  | .wrwa _ _ => "WRWA"
  | .rdb _ => "RDB"
  | .rdw _ => "RDW"
  | .wrb _ _ => "WRB"
  | .wrw _ _ => "WRW"
  | .rdbitB _ _ => "RDBIT.B"
  | .rdbitW _ _ => "RDBIT.W"
  | .rdbitsB _ _ _ => "RDBITS.B"
  | .rdbitsW _ _ _ => "RDBITS.W"
  | .wrbitB _ _ _ => "WRBIT.B"
  | .wrbitW _ _ _ => "WRBIT.W"
  | .wrbitsB _ _ _ _ => "WRBITS.B"
  | .wrbitsW _ _ _ _ => "WRBITS.W"
  | .xrdba _ _ _ _ => "XRDBA"
  | .xrdwa _ _ _ _ => "XRDWA"
  | .xwrba _ _ _ _ => "XWRBA"
  | .xwrwa _ _ _ _ => "XWRWA"
  | .xrdb _ _ _ => "XRDB"
  | .xrdw _ _ _ => "XRDW"
  | .xwrb _ _ _ _ => "XWRB"
  | .xwrw _ _ _ _ => "XWRW"
  | .xrdbitB _ _ _ _ => "XRDBIT.B"
  | .xrdbitW _ _ _ _ => "XRDBIT.W"
  | .xrdbitsB _ _ _ _ _ => "XRDBITS.B"
  | .xrdbitsW _ _ _ _ _ => "XRDBITS.W"
  | .xwrbitB _ _ _ _ _ => "XWRBIT.B"
  | .xwrbitW _ _ _ _ _ => "XWRBIT.W"
  | .xwrbitsB _ _ _ _ _ _ => "XWRBITS.B"
  | .xwrbitsW _ _ _ _ _ _ => "XWRBITS.W"

/-- The command word whose bits are the low `nbits` bits of `w`, all others zero.  A command is one 64-bit word
(R80), so its bits are numbered as the opcode table numbers them (log 24). -/
def tableWord (nbits w : Nat) : BitVec 64 := BitVec.ofNat 64 (w % 2 ^ nbits)

/-- The instruction the decoder reads from a word of the opcode table. -/
def decodeTableWord (nbits w : Nat) : Option Instr :=
  match decode (tableWord nbits w) with
  | .ok i => some i
  | .error _ => none

end Sys2Proof
end

