-- ==== Sys2Proof/Config.lean ====
section
/-! DEFINITION. What an instance fixes and what the spec leaves open (spec 00_scope.md R8, 92_eei_decisions.md).

An `opaque` constant has no body: nothing in Lean can evaluate it, so whatever is proved holds for every value
of it. -/

namespace Sys2Proof

/-- The order held by BIND_ORDER (10_state.md R23). -/
inductive ByteOrder where
  | msbFirst
  | lsbFirst
  deriving DecidableEq, Repr, Inhabited

/-- The setting WR_WORD_ORDER of the word write path (20_memory.md R55). -/
inductive WrWordOrder where
  | fixedMsbFirst
  | followOrder
  deriving DecidableEq, Repr

/-- BIND_SEL_V, BIND_CLK_V, BIND_ORDER_V, BIND_MODE_V: the Bus Binding of this instance, OPEN (R8, D9; log 5). -/
opaque Config.bindSelV : BitVec 8
/-- See `Config.bindSelV`. -/
opaque Config.bindClkV : BitVec 32
/-- See `Config.bindSelV`. -/
opaque Config.bindOrderV : ByteOrder
/-- See `Config.bindSelV`. -/
opaque Config.bindModeV : BitVec 2

/-- DUMMY: the octet sent in every payload exchange of a read, OPEN (R8, R118; log 6). -/
opaque Config.dummy : Octet

/-- RTIMEOUT_RESET, OPEN (R8, R24; log 7). -/
opaque Config.rtimeoutReset : Word

/-- WR_WORD_ORDER: the value the spec takes (R8, R55, D13; log 8). -/
def Config.wrWordOrder : WrWordOrder := .fixedMsbFirst

/-- What DBUF entry `i` holds after reset number `k`: unspecified (10_state.md R34, U6; log 9). -/
opaque Config.dbufAtReset (k i : Nat) : Word
/-- What IDX holds after reset number `k`: unspecified (R34, U16; log 10). -/
opaque Config.idxAtReset (k : Nat) : BitVec 8
/-- What HALF holds after reset number `k`: unspecified (R34, U16; log 10). -/
opaque Config.halfAtReset (k : Nat) : Bool
/-- What WACC holds after reset number `k`: unspecified (R34, U16; log 10). -/
opaque Config.waccAtReset (k : Nat) : Word

/-- The octet the transport answers in exchange number `k` where State lists no answer for it: any octet
(40_transport_framing.md R122, U4; log 3). -/
opaque Config.freeAnswer (k : Nat) : Octet

/-- The `k`-th unspecified `w`-bit result: any value (42_bit_access.md R163, U1 to U3; log 11, log 12). -/
opaque Config.freeValue (w k : Nat) : BitVec w

end Sys2Proof
end

