-- ==== Sys2Proof/Machine/State.lean ====
section
/-! DEFINITION. The state of one RAL instance (10_state.md R20), what its neighbours show the model, and reset. -/

namespace Sys2Proof.Machine

/-- PHASE: the progress of the framer (10_state.md R29, 40_transport_framing.md R124). -/
inductive Phase where
  | idle
  | begun
  | selected
  | payload
  | deselected
  deriving DecidableEq, Repr

/-- Which of the two frames of a bit or field write is running (10_state.md R29; log 22). -/
inductive FrameNo where
  | first
  | second
  deriving DecidableEq, Repr

/-- BIND.CFG, the argument of `T.begin` (10_state.md R21). -/
structure BusConfig where
  clk : BitVec 32
  order : ByteOrder
  mode : BitVec 2
  deriving DecidableEq, Repr

/-- One call of a Byte Transport primitive, as a trace lists it (00_scope.md R13, 40_transport_framing.md R110). -/
inductive Call where
  /-- `BEGIN(cfg)` -/
  | beginFrame (cfg : BusConfig)
  /-- `SEL(line)` -/
  | sel (line : BitVec 8)
  /-- `X(out→ans)` -/
  | xchg (out ans : Octet)
  /-- `DESEL(line)` -/
  | desel (line : BitVec 8)
  /-- `END` -/
  | endFrame
  deriving DecidableEq, Repr

/-- What the outside does to the block between commands: a host access by register number (10_state.md R35) or
the reset (70_reset_and_hazards.md R210). -/
inductive HostInput where
  | read (reg : Nat)
  | write (reg : Nat) (value : BitVec 64)
  | reset
  deriving DecidableEq, Repr

/-- The state.  The fields up to `wacc` are the block's (R20); the others are the model's own: the trace, the
transport's answers, the counters of free values, and the host's side (log 2, log 3, log 4, log 20, log 23). -/
structure State where
  /-- BIND_SEL (R21) -/
  bindSel : BitVec 8
  /-- BIND_CLK (R21) -/
  bindClk : BitVec 32
  /-- BIND_ORDER (R23) -/
  bindOrder : ByteOrder
  /-- BIND_MODE (R21) -/
  bindMode : BitVec 2
  /-- RTIMEOUT (R24) -/
  rtimeout : Word
  /-- CMD: the command issued and not yet completed (R25); `none` is "nothing pending" (R34) -/
  cmd : Option (BitVec 64)
  /-- STATUS (R26) -/
  status : BitVec 32
  /-- RDATA (R27) -/
  rdata : Word
  /-- DBUF[0..255] (R28) -/
  dbuf : Vector Word 256
  /-- PHASE (R29) -/
  phase : Phase
  /-- IDX (R29) -/
  idx : Nat
  /-- which of the two frames is running (R29) -/
  frameNo : FrameNo
  /-- HALF (R30): false = the next captured octet is the first of its word -/
  half : Bool
  /-- WACC (R30) -/
  wacc : Word
  /-- the primitive calls made so far, oldest first -/
  trace : List Call
  /-- the octets the transport is going to answer, oldest first -/
  answers : List Octet
  /-- how many exchanges have been made -/
  xchgs : Nat
  /-- how many unspecified values have been drawn -/
  draws : Nat
  /-- what the host is about to do, oldest first -/
  inputs : List HostInput
  /-- the value of the host's last register read -/
  hostData : BitVec 32
  deriving DecidableEq, Repr

/-- The block raises no exception and nothing stops it (60_exceptions.md R190): there is no fault. -/
inductive Fault where
  deriving DecidableEq, Repr

/-- Why the model gives an instruction no meaning. -/
inductive Refusal where
  /-- Raised by an arm of `exec` whose instruction has no meaning yet; no arm raises it.  Safe. -/
  | notModelled (mnemonic : String)
  deriving DecidableEq, Repr

/-- What DBUF holds after reset number `k`: unspecified in every entry (R34, U6; log 9). -/
def State.dbufAtReset (k : Nat) : Vector Word 256 :=
  ⟨((List.range 256).map (Config.dbufAtReset k)).toArray, by simp⟩

/-- The state right after the first reset (10_state.md R34, 70_reset_and_hazards.md R210, R211). -/
def State.reset : State where
  bindSel := Config.bindSelV
  bindClk := Config.bindClkV
  bindOrder := Config.bindOrderV
  bindMode := Config.bindModeV
  rtimeout := Config.rtimeoutReset
  cmd := none
  status := 0
  rdata := 0
  dbuf := State.dbufAtReset 0
  phase := .idle
  idx := (Config.idxAtReset 0).toNat
  frameNo := .first
  half := Config.halfAtReset 0
  wacc := Config.waccAtReset 0
  trace := []
  answers := []
  xchgs := 0
  draws := 0
  inputs := []
  hostData := 0

end Sys2Proof.Machine
end

