-- ==== Sys2Proof/Machine/Flags.lean ====
section
/-! DEFINITION. The Transfer Result in STATUS: its packing and its fields (10_state.md R26).  There is no other
condition code (R30). -/

namespace Sys2Proof.Machine

/-- STATUS with RES in bits 15:0, ILL in bit 16 and bits 31:17 zero (R26). -/
def statusWord (res : Word) (ill : Bool) : BitVec 32 := 0#15 ++ BitVec.ofBool ill ++ res

/-- STATUS.RES (R26). -/
def statusRes (st : BitVec 32) : Word := st.extractLsb' 0 16

/-- STATUS.ILL (R26). -/
def statusIll (st : BitVec 32) : Bool := st.getLsbD 16

/-- Bits 31:17 of STATUS, which read as zero (R26). -/
def statusReserved (st : BitVec 32) : BitVec 15 := st.extractLsb' 17 15

/-- STATUS.RES as the 16-bit two's-complement count it is for a read (R26). -/
def statusCount (st : BitVec 32) : Int := (statusRes st).toInt

/-- RES of a read operation: the count of elements (R26, R192). -/
def countRes (n : Nat) : Word := BitVec.ofNat 16 n

/-- RES of a write operation: 1 = success, 0 = failure (R26, R193). -/
def boolRes (ok : Bool) : Word := if ok then 1 else 0

end Sys2Proof.Machine
end

