-- ==== Sys2Proof/Machine/Operands.lean ====
section
/-! DEFINITION. The operand forms: element widths, the address octet, the octets of a word, and the bit-field unit
(20_memory.md R51, R54, R55; 42_bit_access.md R151, R152). -/

namespace Sys2Proof.Machine

/-- The word width of an access: 8 or 16 bits (00_scope.md R8). -/
inductive Width where
  | octet
  | word
  deriving DecidableEq, Repr

/-- How many octets one element takes on the wire (R59). -/
def Width.octets : Width → Nat
  | .octet => 1
  | .word => 2

/-- READ_FLAG (00_scope.md R8). -/
def readFlag : Octet := 0x80

/-- The address octet of a read: the flag is OR-ed in (R51). -/
def readAddr (a : Octet) : Octet := a ||| readFlag

/-- The address octet of a write: the address unmodified (R51). -/
def writeAddr (a : Octet) : Octet := a

/-- Bits 15:8 of a word. -/
def hiOctet (x : Word) : Octet := x.extractLsb' 8 8

/-- Bits 7:0 of a word. -/
def loOctet (x : Word) : Octet := x.extractLsb' 0 8

/-- `zext_16` of a value of at most 16 bits (00_scope.md R10). -/
def zext16 {w : Nat} (v : BitVec w) : Word := v.setWidth 16

/-- BIND_ORDER as its bit: 0 = MSB_FIRST, 1 = LSB_FIRST (10_state.md R23). -/
def orderBit : ByteOrder → BitVec 1
  | .msbFirst => 0
  | .lsbFirst => 1

/-- WordOctets: the octets of a word in the order they are sent (41_array_access.md R134, 20_memory.md R55). -/
def wordOctets (setting : WrWordOrder) (order : ByteOrder) (x : Word) : List Octet :=
  if setting = .fixedMsbFirst ∨ order = .msbFirst then [hiOctet x, loOctet x] else [loOctet x, hiOctet x]

/-- The first captured octet of a word goes to its high or its low half (41_array_access.md R132). -/
def putFirst (order : ByteOrder) (wacc : Word) (o : Octet) : Word :=
  match order with
  | .msbFirst => o ++ loOctet wacc
  | .lsbFirst => hiOctet wacc ++ o

/-- The second captured octet of a word goes to the other half (41_array_access.md R132). -/
def putSecond (order : ByteOrder) (wacc : Word) (o : Octet) : Word :=
  match order with
  | .msbFirst => hiOctet wacc ++ o
  | .lsbFirst => o ++ loOctet wacc

/-! The bit-field unit, at the width `w` of the register. -/

/-- VALID(bitStart, length, W) (42_bit_access.md R151). -/
def validField (bitStart length w : Nat) : Bool := bitStart ≤ w - 1 && length ≤ w && length ≤ bitStart + 1

/-- `value < 2^length`, required of WRBITS (42_bit_access.md R152). -/
def valueFits {w : Nat} (length : Nat) (value : BitVec w) : Bool := value.toNat < 2 ^ length

/-- `bitNum <= W - 1` (42_bit_access.md R151). -/
def validBit (bitNum w : Nat) : Bool := bitNum ≤ w - 1

/-- FSHIFT = bitStart - length + 1, for a valid descriptor (R151). -/
def fshift (bitStart length : Nat) : Nat := bitStart + 1 - length

/-- FMASK = ((1 << length) - 1) << FSHIFT, computed in integers (R151). -/
def fmask (w bitStart length : Nat) : BitVec w := BitVec.ofNat w (((1 <<< length) - 1) <<< fshift bitStart length)

/-- BMASK = 1 << bitNum (R151). -/
def bmask (w bitNum : Nat) : BitVec w := BitVec.ofNat w (1 <<< bitNum)

/-- EXTRACT (R152). -/
def extractField {w : Nat} (b : BitVec w) (bitStart length : Nat) : BitVec w :=
  (b &&& fmask w bitStart length) >>> fshift bitStart length

/-- INSERT (R152). -/
def insertField {w : Nat} (b : BitVec w) (bitStart length : Nat) (value : BitVec w) : BitVec w :=
  (b &&& ~~~fmask w bitStart length) ||| (value <<< fshift bitStart length)

/-- The masked bit of RDBIT, not shifted down (R153). -/
def readBit {w : Nat} (b : BitVec w) (bitNum : Nat) : BitVec w := b &&& bmask w bitNum

/-- The register with one bit set or cleared (R157). -/
def writeBit {w : Nat} (b : BitVec w) (bitNum : Nat) (value : Bool) : BitVec w :=
  if value then b ||| bmask w bitNum else b &&& ~~~bmask w bitNum

end Sys2Proof.Machine
end

