-- ==== Sys2Proof/Machine/Ops.lean ====
section
/-! DEFINITION. The shared operations: the five transport primitives, the frame, MemRead and MemWrite, the word
assembler, register read and write, DBUF, and completion of a command (40_transport_framing.md R110 to R124,
41_array_access.md R132, 42_bit_access.md R150). -/

namespace Sys2Proof.Machine

/-- BIND.CFG (10_state.md R21). -/
def State.busConfig (s : State) : BusConfig := ⟨s.bindClk, s.bindOrder, s.bindMode⟩

/-- The octet the transport answers in the `k`-th exchange from now: any octet (R122, U4; log 3). -/
def State.answerAt (s : State) (k : Nat) : Octet := (s.answers[k]?).getD (Config.freeAnswer (s.xchgs + k))

/-! ## The five primitives (R110) with the phases of R124 -/

/-- `T.begin(BIND.CFG)`. -/
def tBegin (s : State) : State := { s with trace := s.trace ++ [.beginFrame s.busConfig], phase := .begun }

/-- `T.select(BIND.SEL)`. -/
def tSelect (s : State) : State := { s with trace := s.trace ++ [.sel s.bindSel], phase := .selected }

/-- `T.xchg(out) -> in`: exactly one octet is answered (R116). -/
def tXchg (out : Octet) (s : State) : Octet × State :=
  (s.answerAt 0,
   { s with trace := s.trace ++ [.xchg out (s.answerAt 0)], phase := .payload,
            answers := s.answers.drop 1, xchgs := s.xchgs + 1 })

/-- `T.deselect(BIND.SEL)`. -/
def tDeselect (s : State) : State := { s with trace := s.trace ++ [.desel s.bindSel], phase := .deselected }

/-- `T.end()`.  PHASE leaves DESELECTED with the next frame or with the completion (R124; log 22). -/
def tEnd (s : State) : State := { s with trace := s.trace ++ [.endFrame] }

/-! ## The frame (R112) -/

/-- What a frame does with payload octet `k`, once captured. -/
abbrev Sink := Nat → Octet → State → State

/-- The payload exchanges of a frame from number `k` on: the octets captured, and the state (R112). -/
def payload (sink : Sink) : Nat → List Octet → State → List Octet × State
  | _, [], s => ([], s)
  | k, out :: outs, s =>
    let x := tXchg out s
    let rest := payload sink (k + 1) outs (sink k x.1 x.2)
    (x.1 :: rest.1, rest.2)

/-- IDX and HALF as a frame starts its payload (R124). -/
def startPayload (s : State) : State := { s with idx := 0, half := false }

/-- One frame: begin, select, the address octet, whose response is discarded (R117), the payload, deselect, end
(R112). -/
def frame (addrOctet : Octet) (outs : List Octet) (sink : Sink) (s : State) : List Octet × State :=
  let opened := (tXchg addrOctet (tSelect (tBegin s))).2
  let p := payload sink 0 outs (startPayload opened)
  (p.1, tEnd (tDeselect p.2))

/-- A sink that stores nothing: IDX counts the elements done (R29; log 10). -/
def countElements (width : Width) : Sink := fun k _ s => { s with idx := (k + 1) / width.octets }

/-- MemRead(a, n): one read frame that collects `n` payload octets (R114, R118). -/
def memRead (width : Width) (a : Octet) (n : Nat) (s : State) : List Octet × State :=
  frame (readAddr a) (List.replicate n Config.dummy) (countElements width) s

/-- MemWrite(a, n, v): one write frame that sends the octets of `v`; the responses are discarded (R115, R117). -/
def memWrite (width : Width) (a : Octet) (v : List Octet) (s : State) : State :=
  (frame (writeAddr a) v (countElements width) s).2

/-! ## The word assembler (41_array_access.md R132) -/

/-- Assemble(o): `none` after the first octet of a word, the word after the second. -/
def assemble (o : Octet) (s : State) : Option Word × State :=
  if s.half then
    let w := putSecond s.bindOrder s.wacc o
    (some w, { s with wacc := w, half := false })
  else
    (none, { s with wacc := putFirst s.bindOrder s.wacc o, half := true })

/-! ## DBUF (10_state.md R28) -/

/-- `DBUF[i] <- v`. -/
def State.setDbuf (i : Nat) (v : Word) (s : State) : State := { s with dbuf := s.dbuf.setIfInBounds i v }

/-- The elements stored in ascending order from entry `i` on (20_memory.md R53). -/
def storeFrom : Nat → List Word → State → State
  | _, [], s => s
  | i, v :: vs, s => storeFrom (i + 1) vs (s.setDbuf i v)

/-- `DBUF[0..count-1]`, the elements of an array write in order (20_memory.md R53). -/
def State.elements (s : State) (count : Nat) : List Word := s.dbuf.toList.take count

/-- The sink of RDWA: assemble, and after the second octet of a word store it in `DBUF[IDX]` and advance IDX
(41_array_access.md R131). -/
def storeWords : Sink := fun _ o s =>
  match assemble o s with
  | (none, s) => s
  | (some w, s) => { s.setDbuf s.idx w with idx := s.idx + 1 }

/-! ## ReadReg and WriteReg (42_bit_access.md R150) -/

/-- The result of ReadReg: the count of elements `n`, the register value `b`, and the state after the frame. -/
structure ReadResult (w : Nat) where
  n : Nat
  b : BitVec w
  after : State
  deriving DecidableEq, Repr

/-- The result of WriteReg: its success flag and the state after the frame. -/
structure WriteResult where
  ok : Bool
  after : State
  deriving DecidableEq, Repr

/-- ReadReg(8, a).  MemRead(a, 1) captures one octet, so `r[0]` exists, and the count is 1 (R116, R161; log 14). -/
def readReg8 (a : Octet) (s : State) : ReadResult 8 :=
  let r := memRead .octet a 1 s
  ⟨1, r.1.getD 0 0, r.2⟩

/-- ReadReg(16, a): two octets, assembled by BIND_ORDER; the count is one word (R116, R161; log 14). -/
def readReg16 (a : Octet) (s : State) : ReadResult 16 :=
  let r := memRead .word a 2 s
  let first := assemble (r.1.getD 0 0) { r.2 with half := false }
  let second := assemble (r.1.getD 1 0) first.2
  ⟨1, second.1.getD 0, second.2⟩

/-- WriteReg(8, a, x). -/
def writeReg8 (a : Octet) (x : Octet) (s : State) : WriteResult := ⟨true, memWrite .octet a [x] s⟩

/-- WriteReg(16, a, x). -/
def writeReg16 (setting : WrWordOrder) (a : Octet) (x : Word) (s : State) : WriteResult :=
  ⟨true, memWrite .word a (wordOctets setting s.bindOrder x) s⟩

/-! ## Computed values the spec leaves unspecified (42_bit_access.md R163) -/

/-- A computed value where its rule defines it, and otherwise a free value (U1 to U3; log 11, log 12). -/
def computed {w : Nat} (defined : Bool) (v : BitVec w) (s : State) : BitVec w × State :=
  if defined then (v, s) else (Config.freeValue w s.draws, { s with draws := s.draws + 1 })

/-! ## Completion of a command (40_transport_framing.md R123) -/

/-- STATUS is overwritten whole with ILL = 0, the sequencer is idle again, and the host is released (R26, R123). -/
def complete (res : Word) (s : State) : State :=
  { s with status := statusWord res false, phase := .idle, frameNo := .first, cmd := none }

/-- A read ends with the count of elements (41_array_access.md R139). -/
def completeRead (n : Nat) (s : State) : State := complete (countRes n) s

/-- A write ends with its success flag (41_array_access.md R139). -/
def completeWrite (ok : Bool) (s : State) : State := complete (boolRes ok) s

/-- The success branch of a scalar read: RDATA is written only if the read count is not zero
(42_bit_access.md R153, 60_exceptions.md R195). -/
def deliver (n : Nat) (v : Word) (s : State) : State := if n ≠ 0 then { s with rdata := v } else s

/-! ## The bit and field operations after their prerequisite read, at either width -/

/-- RDBIT after its read (R153, R154). -/
def finishReadBit {w : Nat} (bitNum : Nat) (r : ReadResult w) : State :=
  let v := computed (validBit bitNum w) (readBit r.b bitNum) r.after
  completeRead r.n (deliver r.n (zext16 v.1) v.2)

/-- RDBITS after its read (R155, R156). -/
def finishReadField {w : Nat} (bitStart length : Nat) (r : ReadResult w) : State :=
  let v := computed (validField bitStart length w) (extractField r.b bitStart length) r.after
  completeRead r.n (deliver r.n (zext16 v.1) v.2)

/-- WRBIT after its read: the count is not tested, the write-back is always issued (R157, R158). -/
def finishWriteBit {w : Nat} (write : BitVec w → State → WriteResult) (bitNum : Nat) (value : Bool)
    (r : ReadResult w) : State :=
  let v := computed (validBit bitNum w) (writeBit r.b bitNum value) r.after
  let done := write v.1 { v.2 with frameNo := .second }
  completeWrite done.ok done.after

/-- WRBITS after its read: a count of zero aborts without a second frame (R159, R160, R161). -/
def finishWriteField {w : Nat} (write : BitVec w → State → WriteResult) (bitStart length : Nat)
    (value : BitVec w) (r : ReadResult w) : State :=
  if r.n = 0 then completeWrite false r.after
  else
    let v := computed (validField bitStart length w && valueFits length value)
      (insertField r.b bitStart length value) r.after
    let done := write v.1 { v.2 with frameNo := .second }
    completeWrite done.ok done.after

/-! ## Issue of a command, illegal words -/

/-- The command word the block has been given and not yet completed (10_state.md R25). -/
def State.pendingWord (s : State) : Option (BitVec 64) := s.cmd

/-- The state in which the command word `c` has been issued (10_state.md R25). -/
def State.issue (c : BitVec 64) (s : State) : State := { s with cmd := some c }

/-- An illegal word: no transport call, RES = 0, ILL = 1, nothing else changes, the host is released
(30_encoding.md R88, 60_exceptions.md R194; log 13). -/
def illegalCommand (s : State) : State := { s with status := statusWord 0 true, cmd := none }

end Sys2Proof.Machine
end

