-- ==== Sys2Proof/Machine/ArrayAccess.lean ====
section
/-! DEFINITION. Byte and word arrays and single registers: RDBA, RDWA, WRBA, WRWA, RDB, RDW, WRB, WRW
(41_array_access.md R130 to R139). -/

namespace Sys2Proof.Machine

/-- RDBA addr, count (R130). -/
def execRdba (a : Octet) (count : BitVec 8) (s : State) : Host.Outcome State Fault Refusal :=
  let r := memRead .octet a count.toNat s
  .next (completeRead r.1.length (storeFrom 0 (r.1.map zext16) r.2))

/-- RDWA addr, count: the frame MemRead(a, 2 * count), each word stored as its second octet arrives; the count is
that of words (R131). -/
def execRdwa (a : Octet) (count : BitVec 8) (s : State) : Host.Outcome State Fault Refusal :=
  let r := frame (readAddr a) (List.replicate (2 * count.toNat) Config.dummy) storeWords s
  .next (completeRead r.2.idx r.2)

/-- WRBA addr, count: bits 7:0 of each entry (R133). -/
def execWrba (a : Octet) (count : BitVec 8) (s : State) : Host.Outcome State Fault Refusal :=
  .next (completeWrite true (memWrite .octet a ((s.elements count.toNat).map loOctet) s))

/-- WRWA addr, count: each entry as WordOctets (R134). -/
def execWrwa (a : Octet) (count : BitVec 8) (s : State) : Host.Outcome State Fault Refusal :=
  .next (completeWrite true
    (memWrite .word a ((s.elements count.toNat).flatMap (wordOctets Config.wrWordOrder s.bindOrder)) s))

/-- RDB addr (R135). -/
def execRdb (a : Octet) (s : State) : Host.Outcome State Fault Refusal :=
  let r := readReg8 a s
  .next (completeRead r.n { r.after with rdata := zext16 r.b })

/-- RDW addr (R136). -/
def execRdw (a : Octet) (s : State) : Host.Outcome State Fault Refusal :=
  let r := readReg16 a s
  .next (completeRead r.n { r.after with rdata := r.b })

/-- WRB addr, value (R137). -/
def execWrb (a : Octet) (value : Octet) (s : State) : Host.Outcome State Fault Refusal :=
  let r := writeReg8 a value s
  .next (completeWrite r.ok r.after)

/-- WRW addr, value (R138). -/
def execWrw (a : Octet) (value : Word) (s : State) : Host.Outcome State Fault Refusal :=
  let r := writeReg16 Config.wrWordOrder a value s
  .next (completeWrite r.ok r.after)

end Sys2Proof.Machine
end

