-- ==== Sys2Proof/Machine/BitAccess.lean ====
section
/-! DEFINITION. Bits and bit fields: RDBIT, RDBITS, WRBIT, WRBITS, each on an octet and on a word register
(42_bit_access.md R150 to R164). -/

namespace Sys2Proof.Machine

/-- RDBIT.B addr, bitNum (R153). -/
def execRdbitB (a : Octet) (bitNum : Nat) (s : State) : Host.Outcome State Fault Refusal :=
  .next (finishReadBit bitNum (readReg8 a s))

/-- RDBIT.W addr, bitNum (R154). -/
def execRdbitW (a : Octet) (bitNum : Nat) (s : State) : Host.Outcome State Fault Refusal :=
  .next (finishReadBit bitNum (readReg16 a s))

/-- RDBITS.B addr, bitStart, length (R155). -/
def execRdbitsB (a : Octet) (bitStart length : Nat) (s : State) : Host.Outcome State Fault Refusal :=
  .next (finishReadField bitStart length (readReg8 a s))

/-- RDBITS.W addr, bitStart, length (R156). -/
def execRdbitsW (a : Octet) (bitStart length : Nat) (s : State) : Host.Outcome State Fault Refusal :=
  .next (finishReadField bitStart length (readReg16 a s))

/-- WRBIT.B addr, bitNum, value (R157). -/
def execWrbitB (a : Octet) (bitNum : Nat) (value : Bool) (s : State) : Host.Outcome State Fault Refusal :=
  .next (finishWriteBit (writeReg8 a) bitNum value (readReg8 a s))

/-- WRBIT.W addr, bitNum, value (R158). -/
def execWrbitW (a : Octet) (bitNum : Nat) (value : Bool) (s : State) : Host.Outcome State Fault Refusal :=
  .next (finishWriteBit (writeReg16 Config.wrWordOrder a) bitNum value (readReg16 a s))

/-- WRBITS.B addr, bitStart, length, value (R159). -/
def execWrbitsB (a : Octet) (bitStart length : Nat) (value : Octet) (s : State) :
    Host.Outcome State Fault Refusal :=
  .next (finishWriteField (writeReg8 a) bitStart length value (readReg8 a s))

/-- WRBITS.W addr, bitStart, length, value (R160). -/
def execWrbitsW (a : Octet) (bitStart length : Nat) (value : Word) (s : State) :
    Host.Outcome State Fault Refusal :=
  .next (finishWriteField (writeReg16 Config.wrWordOrder a) bitStart length value (readReg16 a s))

end Sys2Proof.Machine
end

