-- ==== Sys2Proof/Machine/Shim.lean ====
section
/-! DEFINITION. The compatibility shim: sixteen X-forms, each forwarding to its counterpart, the device address and
the timeout read by nothing (43_shim.md R170 to R186). -/

namespace Sys2Proof.Machine

/-- XRDBA (R171). -/
def execXrdba (_devAddr a : Octet) (count : BitVec 8) (_timeout : Octet) (s : State) :
    Host.Outcome State Fault Refusal :=
  execRdba a count s

/-- XRDWA (R172). -/
def execXrdwa (_devAddr a : Octet) (count : BitVec 8) (_timeout : Octet) (s : State) :
    Host.Outcome State Fault Refusal :=
  execRdwa a count s

/-- XWRBA (R173). -/
def execXwrba (_devAddr a : Octet) (count : BitVec 8) (_timeout : Octet) (s : State) :
    Host.Outcome State Fault Refusal :=
  execWrba a count s

/-- XWRWA (R174). -/
def execXwrwa (_devAddr a : Octet) (count : BitVec 8) (_timeout : Octet) (s : State) :
    Host.Outcome State Fault Refusal :=
  execWrwa a count s

/-- XRDB (R175). -/
def execXrdb (_devAddr a : Octet) (_timeout : Octet) (s : State) :
    Host.Outcome State Fault Refusal :=
  execRdb a s

/-- XRDW (R176). -/
def execXrdw (_devAddr a : Octet) (_timeout : Octet) (s : State) :
    Host.Outcome State Fault Refusal :=
  execRdw a s

/-- XWRB (R177). -/
def execXwrb (_devAddr a : Octet) (value : Octet) (_timeout : Octet) (s : State) :
    Host.Outcome State Fault Refusal :=
  execWrb a value s

/-- XWRW (R178). -/
def execXwrw (_devAddr a : Octet) (value : Word) (_timeout : Octet) (s : State) :
    Host.Outcome State Fault Refusal :=
  execWrw a value s

/-- XRDBIT.B (R179). -/
def execXrdbitB (_devAddr a : Octet) (bitNum : Nat) (_timeout : Octet) (s : State) :
    Host.Outcome State Fault Refusal :=
  execRdbitB a bitNum s

/-- XRDBIT.W (R180). -/
def execXrdbitW (_devAddr a : Octet) (bitNum : Nat) (_timeout : Octet) (s : State) :
    Host.Outcome State Fault Refusal :=
  execRdbitW a bitNum s

/-- XRDBITS.B (R181). -/
def execXrdbitsB (_devAddr a : Octet) (bitStart length : Nat) (_timeout : Octet) (s : State) :
    Host.Outcome State Fault Refusal :=
  execRdbitsB a bitStart length s

/-- XRDBITS.W (R182). -/
def execXrdbitsW (_devAddr a : Octet) (bitStart length : Nat) (_timeout : Octet) (s : State) :
    Host.Outcome State Fault Refusal :=
  execRdbitsW a bitStart length s

/-- XWRBIT.B (R183). -/
def execXwrbitB (_devAddr a : Octet) (bitNum : Nat) (value : Bool) (_timeout : Octet) (s : State) :
    Host.Outcome State Fault Refusal :=
  execWrbitB a bitNum value s

/-- XWRBIT.W (R184). -/
def execXwrbitW (_devAddr a : Octet) (bitNum : Nat) (value : Bool) (_timeout : Octet) (s : State) :
    Host.Outcome State Fault Refusal :=
  execWrbitW a bitNum value s

/-- XWRBITS.B (R185). -/
def execXwrbitsB (_devAddr a : Octet) (bitStart length : Nat) (value : Octet) (_timeout : Octet) (s : State) :
    Host.Outcome State Fault Refusal :=
  execWrbitsB a bitStart length value s

/-- XWRBITS.W (R186). -/
def execXwrbitsW (_devAddr a : Octet) (bitStart length : Nat) (value : Word) (_timeout : Octet) (s : State) :
    Host.Outcome State Fault Refusal :=
  execWrbitsW a bitStart length value s

end Sys2Proof.Machine
end

