-- ==== Sys2Proof/Machine/Dispatch.lean ====
section
/-! DEFINITION. One arm per instruction, each one direct call of its meaning. -/

namespace Sys2Proof.Machine

def exec (i : Instr) (s : State) : Host.Outcome State Fault Refusal :=
  match i with
  | .rdba a count => Sys2Proof.Machine.execRdba a count s
  | .rdwa a count => Sys2Proof.Machine.execRdwa a count s
  | .wrba a count => Sys2Proof.Machine.execWrba a count s
  | .wrwa a count => Sys2Proof.Machine.execWrwa a count s
  | .rdb a => Sys2Proof.Machine.execRdb a s
  | .rdw a => Sys2Proof.Machine.execRdw a s
  | .wrb a value => Sys2Proof.Machine.execWrb a value s
  | .wrw a value => Sys2Proof.Machine.execWrw a value s
  | .rdbitB a bitNum => Sys2Proof.Machine.execRdbitB a bitNum s
  | .rdbitW a bitNum => Sys2Proof.Machine.execRdbitW a bitNum s
  | .rdbitsB a bitStart length => Sys2Proof.Machine.execRdbitsB a bitStart length s
  | .rdbitsW a bitStart length => Sys2Proof.Machine.execRdbitsW a bitStart length s
  | .wrbitB a bitNum value => Sys2Proof.Machine.execWrbitB a bitNum value s
  | .wrbitW a bitNum value => Sys2Proof.Machine.execWrbitW a bitNum value s
  | .wrbitsB a bitStart length value => Sys2Proof.Machine.execWrbitsB a bitStart length value s
  | .wrbitsW a bitStart length value => Sys2Proof.Machine.execWrbitsW a bitStart length value s
  | .xrdba devAddr a count timeout => Sys2Proof.Machine.execXrdba devAddr a count timeout s
  | .xrdwa devAddr a count timeout => Sys2Proof.Machine.execXrdwa devAddr a count timeout s
  | .xwrba devAddr a count timeout => Sys2Proof.Machine.execXwrba devAddr a count timeout s
  | .xwrwa devAddr a count timeout => Sys2Proof.Machine.execXwrwa devAddr a count timeout s
  | .xrdb devAddr a timeout => Sys2Proof.Machine.execXrdb devAddr a timeout s
  | .xrdw devAddr a timeout => Sys2Proof.Machine.execXrdw devAddr a timeout s
  | .xwrb devAddr a value timeout => Sys2Proof.Machine.execXwrb devAddr a value timeout s
  | .xwrw devAddr a value timeout => Sys2Proof.Machine.execXwrw devAddr a value timeout s
  | .xrdbitB devAddr a bitNum timeout => Sys2Proof.Machine.execXrdbitB devAddr a bitNum timeout s
  | .xrdbitW devAddr a bitNum timeout => Sys2Proof.Machine.execXrdbitW devAddr a bitNum timeout s
  | .xrdbitsB devAddr a bitStart length timeout => Sys2Proof.Machine.execXrdbitsB devAddr a bitStart length timeout s
  | .xrdbitsW devAddr a bitStart length timeout => Sys2Proof.Machine.execXrdbitsW devAddr a bitStart length timeout s
  | .xwrbitB devAddr a bitNum value timeout => Sys2Proof.Machine.execXwrbitB devAddr a bitNum value timeout s
  | .xwrbitW devAddr a bitNum value timeout => Sys2Proof.Machine.execXwrbitW devAddr a bitNum value timeout s
  | .xwrbitsB devAddr a bitStart length value timeout => Sys2Proof.Machine.execXwrbitsB devAddr a bitStart length value timeout s
  | .xwrbitsW devAddr a bitStart length value timeout => Sys2Proof.Machine.execXwrbitsW devAddr a bitStart length value timeout s

end Sys2Proof.Machine
end

