-- ==== Sys2Proof/Machine/HostPort.lean ====
section
/-! DEFINITION. The host's side between commands: register reads and writes by number (10_state.md R35) and reset
(70_reset_and_hazards.md R210, R224). -/

namespace Sys2Proof.Machine

/-- What the host reads from register number `n`, zero-extended to 32 bits; CMD and unassigned numbers read zero
(R35, U17; log 20). -/
def State.hostRead (n : Nat) (s : State) : BitVec 32 :=
  if n = 0x000 then s.bindSel.setWidth 32
  else if n = 0x001 then s.bindClk
  else if n = 0x002 then (orderBit s.bindOrder).setWidth 32
  else if n = 0x003 then s.bindMode.setWidth 32
  else if n = 0x004 then s.rtimeout.setWidth 32
  else if n = 0x006 then s.status
  else if n = 0x007 then s.rdata.setWidth 32
  else if 0x100 ≤ n then ((s.dbuf[n - 0x100]?).getD 0).setWidth 32
  else 0

/-- A host write of `v` to register number `n`: RTIMEOUT, CMD, which issues a command, and DBUF; every other
number ignores it (R35, R22, R25; log 20). -/
def State.hostWrite (n : Nat) (v : BitVec 64) (s : State) : State :=
  if n = 0x004 then { s with rtimeout := v.setWidth 16 }
  else if n = 0x005 then s.issue v
  else if 0x100 ≤ n then s.setDbuf (n - 0x100) (v.setWidth 16)
  else s

/-- Reset applied between commands: the block's own state as after `State.reset`, its unspecified parts
unspecified anew; what belongs to the neighbours stays (R34, R210; log 9, log 10, log 17). -/
def State.applyReset (s : State) : State :=
  { State.reset with
    dbuf := State.dbufAtReset (s.draws + 1)
    idx := (Config.idxAtReset (s.draws + 1)).toNat
    half := Config.halfAtReset (s.draws + 1)
    wacc := Config.waccAtReset (s.draws + 1)
    trace := s.trace
    answers := s.answers
    xchgs := s.xchgs
    draws := s.draws + 1
    inputs := s.inputs
    hostData := s.hostData }

/-- One input of the host. -/
def State.applyInput (s : State) : HostInput → State
  | .read n => { s with hostData := s.hostRead n }
  | .write n v => s.hostWrite n v
  | .reset => s.applyReset

/-- With no command pending the block waits: the host's next input happens, or nothing does (R210; log 2). -/
def State.hostTurn (s : State) : State :=
  match s.inputs with
  | [] => s
  | x :: rest => ({ s with inputs := rest } : State).applyInput x

end Sys2Proof.Machine
end

