-- ==== Sys2Proof/Machine/Step.lean ====
section
/-! DEFINITION. One step: a pending command runs to completion, or the host has its turn
(10_state.md R25, 40_transport_framing.md R123, R124; log 1, log 2). -/

namespace Sys2Proof.Machine

/-- One step of the machine. -/
def step (s : State) : Host.Outcome State Fault Refusal :=
  match s.pendingWord with
  | some c =>
    match decode c with
    | .ok i => exec i s
    | .error _ => .next (illegalCommand s)
  | none => .next s.hostTurn

/-- The state whose very next step runs the instruction word `w`: a command comes to the block by being issued,
not by a fetch (R25, R29; log 2). -/
def State.withFetchWord (s : State) (nbits w : Nat) : State := s.issue (tableWord nbits w)

end Sys2Proof.Machine
end

