-- ==== Sys2Proof/Safety.lean ====
section
/-! DEFINITION. The terms the claims use: what a frame looks like on the transport, the level of the select line,
what a completed command leaves, and the invariant of every step. -/

namespace Sys2Proof.Machine

/-! ## What stands on the transport (00_scope.md R13, 40_transport_framing.md R112 to R115) -/

/-- The exchanges that send `outs`, answered from the `j`-th exchange from `s` on. -/
def State.exchanges (s : State) : Nat → List Octet → List Call
  | _, [] => []
  | j, out :: outs => .xchg out (s.answerAt j) :: s.exchanges (j + 1) outs

/-- The calls of one frame whose first exchange is the `j`-th from `s` on (R112). -/
def State.frameCalls (s : State) (j : Nat) (addrOctet : Octet) (outs : List Octet) : List Call :=
  [.beginFrame s.busConfig, .sel s.bindSel] ++ s.exchanges j (addrOctet :: outs) ++ [.desel s.bindSel, .endFrame]

/-- `BEGIN SEL X(a|0x80→·) X(DUMMY→r[0]) … X(DUMMY→r[n-1]) DESEL END` (R114). -/
def State.readFrame (s : State) (j : Nat) (a : Octet) (n : Nat) : List Call :=
  s.frameCalls j (a ||| 0x80) (List.replicate n Config.dummy)

/-- `BEGIN SEL X(a→·) X(v[0]→·) … X(v[n-1]→·) DESEL END` (R115). -/
def State.writeFrame (s : State) (j : Nat) (a : Octet) (v : List Octet) : List Call := s.frameCalls j a v

/-- The `n` octets answered from the `j`-th exchange on. -/
def State.answersFrom (s : State) (j n : Nat) : List Octet := (List.range n).map fun k => s.answerAt (j + k)

/-- The word made of two captured octets (20_memory.md R54). -/
def joinOctets : ByteOrder → Octet → Octet → Word
  | .msbFirst, o1, o2 => o1 ++ o2
  | .lsbFirst, o1, o2 => o2 ++ o1

/-- The word captured by exchanges `j` and `j + 1` from `s` on (R54). -/
def State.wordAt (s : State) (j : Nat) : Word := joinOctets s.bindOrder (s.answerAt j) (s.answerAt (j + 1))

/-- Entry `i` of DBUF. -/
def State.dbufAt (s : State) (i : Fin 256) : Word := s.dbuf[i]

/-! ## Counting calls (R113, R120) -/

/-- Whether a call is a `SEL`. -/
def Call.isSel : Call → Bool
  | .sel _ => true
  | _ => false

/-- Whether a call is a `DESEL`. -/
def Call.isDesel : Call → Bool
  | .desel _ => true
  | _ => false

/-- Whether a call is an exchange. -/
def Call.isXchg : Call → Bool
  | .xchg _ _ => true
  | _ => false

/-- The call without the answer. -/
def Call.unanswered : Call → Call
  | .xchg out _ => .xchg out 0
  | .beginFrame cfg => .beginFrame cfg
  | .sel line => .sel line
  | .desel line => .desel line
  | .endFrame => .endFrame

/-- The call without the octets. -/
def Call.blank : Call → Call
  | .xchg _ _ => .xchg 0 0
  | .beginFrame cfg => .beginFrame cfg
  | .sel line => .sel line
  | .desel line => .desel line
  | .endFrame => .endFrame

/-- How many frames an instruction makes: a bit or field write two, every other instruction one (R113). -/
def frameCount : Instr → Nat
  | .wrbitB _ _ _ | .wrbitW _ _ _ | .wrbitsB _ _ _ _ | .wrbitsW _ _ _ _ => 2
  | .xwrbitB _ _ _ _ _ | .xwrbitW _ _ _ _ _ | .xwrbitsB _ _ _ _ _ _ | .xwrbitsW _ _ _ _ _ _ => 2
  | .rdba _ _ | .rdwa _ _ | .wrba _ _ | .wrwa _ _ | .rdb _ | .rdw _ | .wrb _ _ | .wrw _ _ => 1
  | .rdbitB _ _ | .rdbitW _ _ | .rdbitsB _ _ _ | .rdbitsW _ _ _ => 1
  | .xrdba _ _ _ _ | .xrdwa _ _ _ _ | .xwrba _ _ _ _ | .xwrwa _ _ _ _ => 1
  | .xrdb _ _ _ | .xrdw _ _ _ | .xwrb _ _ _ _ | .xwrw _ _ _ _ => 1
  | .xrdbitB _ _ _ _ | .xrdbitW _ _ _ _ | .xrdbitsB _ _ _ _ _ | .xrdbitsW _ _ _ _ _ => 1

/-- How many payload octets an instruction exchanges, over all its frames (R59, R120). -/
def payloadCount : Instr → Nat
  | .rdba _ n | .wrba _ n | .xrdba _ _ n _ | .xwrba _ _ n _ => n.toNat
  | .rdwa _ n | .wrwa _ n | .xrdwa _ _ n _ | .xwrwa _ _ n _ => 2 * n.toNat
  | .rdb _ | .wrb _ _ | .rdbitB _ _ | .rdbitsB _ _ _ => 1
  | .xrdb _ _ _ | .xwrb _ _ _ _ | .xrdbitB _ _ _ _ | .xrdbitsB _ _ _ _ _ => 1
  | .rdw _ | .wrw _ _ | .rdbitW _ _ | .rdbitsW _ _ _ => 2
  | .xrdw _ _ _ | .xwrw _ _ _ _ | .xrdbitW _ _ _ _ | .xrdbitsW _ _ _ _ _ => 2
  | .wrbitB _ _ _ | .wrbitsB _ _ _ _ | .xwrbitB _ _ _ _ _ | .xwrbitsB _ _ _ _ _ _ => 2
  | .wrbitW _ _ _ | .wrbitsW _ _ _ _ | .xwrbitW _ _ _ _ _ | .xwrbitsW _ _ _ _ _ _ => 4

/-- How many words an instruction's read frame assembles (41_array_access.md R131, R132; 42_bit_access.md R150). -/
def wordReads : Instr → Nat
  | .rdwa _ n | .xrdwa _ _ n _ => n.toNat
  | .rdw _ | .rdbitW _ _ | .rdbitsW _ _ _ | .wrbitW _ _ _ | .wrbitsW _ _ _ _ => 1
  | .xrdw _ _ _ | .xrdbitW _ _ _ _ | .xrdbitsW _ _ _ _ _ | .xwrbitW _ _ _ _ _ | .xwrbitsW _ _ _ _ _ _ => 1
  | .rdba _ _ | .wrba _ _ | .wrwa _ _ | .rdb _ | .wrb _ _ | .wrw _ _ => 0
  | .rdbitB _ _ | .rdbitsB _ _ _ | .wrbitB _ _ _ | .wrbitsB _ _ _ _ => 0
  | .xrdba _ _ _ _ | .xwrba _ _ _ _ | .xwrwa _ _ _ _ | .xrdb _ _ _ | .xwrb _ _ _ _ | .xwrw _ _ _ _ => 0
  | .xrdbitB _ _ _ _ | .xrdbitsB _ _ _ _ _ | .xwrbitB _ _ _ _ _ | .xwrbitsB _ _ _ _ _ _ => 0

/-! ## The select line and the frame phases as functions of the trace (10_state.md R32, R124) -/

/-- Whether the line is active after the calls, given whether it was before (R32). -/
def lineActiveFrom (line : BitVec 8) : Bool → List Call → Bool
  | now, [] => now
  | now, .sel l :: cs => lineActiveFrom line (if l = line then true else now) cs
  | now, .desel l :: cs => lineActiveFrom line (if l = line then false else now) cs
  | now, _ :: cs => lineActiveFrom line now cs

/-- Whether the select line is active: inactive before its first `SEL` (R32, R34; log 16). -/
def State.lineActive (s : State) (line : BitVec 8) : Bool := lineActiveFrom line false s.trace

/-- The phase a call leads to, where R124 allows it. -/
def Phase.after (p : Phase) : Call → Option Phase
  | .beginFrame _ => if p = .idle then some .begun else none
  | .sel _ => if p = .begun then some .selected else none
  | .xchg _ _ => if p = .selected ∨ p = .payload then some .payload else none
  | .desel _ => if p = .payload then some .deselected else none
  | .endFrame => if p = .deselected then some .idle else none

/-- The phase a list of calls leads to. -/
def Phase.afterAll : Phase → List Call → Option Phase
  | p, [] => some p
  | p, c :: cs => match p.after c with
    | none => none
    | some q => q.afterAll cs

/-- The calls are a whole number of frames, each nested `begin ( select ( exchanges ) deselect ) end` (R112). -/
def wholeFrames (cs : List Call) : Prop := Phase.idle.afterAll cs = some .idle

/-! ## What a completed command leaves -/

/-- From `s` a legal command has completed in `t`: STATUS with ILL = 0 and these RES, RDATA, DBUF and calls; the
block is idle and the host released; everything else the host can see is unchanged (R26 to R28, R123, R22, R24). -/
structure Completed (s t : State) (res rdata : Word) (dbuf : Fin 256 → Word) (calls : List Call) : Prop where
  status : t.status = statusWord res false
  rdata : t.rdata = rdata
  dbuf : ∀ i, t.dbufAt i = dbuf i
  trace : t.trace = s.trace ++ calls
  phase : t.phase = .idle
  released : t.cmd = none
  bindSel : t.bindSel = s.bindSel
  bindClk : t.bindClk = s.bindClk
  bindOrder : t.bindOrder = s.bindOrder
  bindMode : t.bindMode = s.bindMode
  rtimeout : t.rtimeout = s.rtimeout
  inputs : t.inputs = s.inputs
  hostData : t.hostData = s.hostData

/-- The Bus Binding of `t` is that of `s` (R22). -/
def SameBinding (s t : State) : Prop :=
  t.bindSel = s.bindSel ∧ t.bindClk = s.bindClk ∧ t.bindOrder = s.bindOrder ∧ t.bindMode = s.bindMode

/-- `s` and `t` agree on everything a command may depend on besides its operands: the Bus Binding, DBUF, the
command, and what the outside answers (10_state.md R31, 90_conflicts.md C14).  They may differ in RTIMEOUT,
STATUS, RDATA, PHASE, IDX, HALF, WACC and the host's side. -/
structure SameInfluences (s t : State) : Prop where
  binding : SameBinding s t
  dbuf : t.dbuf = s.dbuf
  cmd : t.cmd = s.cmd
  trace : t.trace = s.trace
  answers : t.answers = s.answers
  xchgs : t.xchgs = s.xchgs
  draws : t.draws = s.draws

/-! ## The invariant -/

/-- Between steps: the framer is idle, the trace is a whole number of frames, no select line is active, STATUS is
well formed, IDX is in range (R29, R213, R26, R192, R88).  `firstFrame` is the model's (log 22), and so is the
level `lines` starts from (log 16). -/
structure Inv (s : State) : Prop where
  idle : s.phase = .idle
  firstFrame : s.frameNo = .first
  frames : wholeFrames s.trace
  lines : ∀ line, s.lineActive line = false
  reserved : statusReserved s.status = 0
  count : 0 ≤ statusCount s.status
  illegal : statusIll s.status = true → statusRes s.status = 0
  index : s.idx ≤ 255

end Sys2Proof.Machine
end

