-- ==== Sys2Proof/Certificates/Slice0/Obligations.lean ====
section
/-! DEFINITION. The statements about the model.  Each one's docstring names the rules of spec/ it formalises, and
the log entries of any choice of the model's it rests on.  `s.answerAt k`, in every statement, is the octet the
transport answers in the `k`-th exchange from `s` on: any octet (R122, log 3).
Every statement that an instruction or a command answers a next state is about a transport whose every primitive
returns (D22, log 15). -/

open Sys2Proof Sys2Proof.Machine

/-! ## Encoding -/

/-- Decoding the encoding of a well-formed instruction gives it back (R89, last sentence). -/
def Obligations.DecodeOfEncodeIsIdentity : Prop :=
  ∀ i : Instr, i.wellFormed = true → decode (encode i) = .ok i

/-- Every legal word is the encoding of the well-formed instruction it decodes to (R89, last sentence). -/
def Obligations.EncodeOfDecodeIsIdentity : Prop :=
  ∀ (c : BitVec 64) (i : Instr), decode c = .ok i → i.wellFormed = true ∧ encode i = c

/-- A word is legal exactly when OP is 1 to 8 and every must-be-zero bit is zero; equivalently when it matches a
row of the table; it then matches exactly one, which is the row of the instruction it decodes to (R87). -/
def Obligations.LegalWordsMatchExactlyOneRow : Prop :=
  ∀ c : BitVec 64,
    ((∃ i, decode c = .ok i) ↔
      ∃ op, opOf (c.extractLsb' 0 4) = some op ∧ 1 ≤ (c.extractLsb' 0 4).toNat ∧ (c.extractLsb' 0 4).toNat ≤ 8 ∧
        c.extractLsb' 6 2 = 0 ∧ (c.getLsbD 5 = false → c.extractLsb' 48 16 = 0) ∧
        ∀ r ∈ op.format.zeroRanges (c.getLsbD 4), c.extractLsb' r.2 (r.1 - r.2 + 1) = 0) ∧
    ((∃ i, decode c = .ok i) ↔ ∃ r ∈ opcodeTable, c &&& r.mask = r.pattern) ∧
    (∀ r ∈ opcodeTable, ∀ r' ∈ opcodeTable, c &&& r.mask = r.pattern → c &&& r'.mask = r'.pattern → r = r') ∧
    (∀ i, decode c = .ok i → ∃ r ∈ opcodeTable, c &&& r.mask = r.pattern ∧ r.mnemonic = i.mnemonic)

/-- Words of the spec's examples, one for each family, decode to the instruction they stand for, and illegal words
are rejected (41_array_access.md, 42_bit_access.md, 43_shim.md, 95_test_vectors.md section 2.8). -/
def Obligations.SpecExampleWordsDecode : Prop :=
  decode 0x0000000000023B01 = .ok (.rdba 0x3B 2) ∧
  decode 0x0000000000012012 = .ok (.wrwa 0x20 1) ∧
  decode 0x0000000000007503 = .ok (.rdb 0x75) ∧
  decode 0x0000ABCD00000214 = .ok (.wrw 0x02 0xABCD) ∧
  decode 0x00000000000F0C15 = .ok (.rdbitW 0x0C 15) ∧
  decode 0x0000000003041A06 = .ok (.rdbitsB 0x1A 4 3) ∧
  decode 0x0000000100006B07 = .ok (.wrbitB 0x6B 0 true) ∧
  decode 0x000000FF080B0C18 = .ok (.wrbitsW 0x0C 11 8 0xFF) ∧
  decode 0x6468000000031031 = .ok (.xrdwa 0x68 0x10 3 0x64) ∧
  decode 0x0068000503041A28 = .ok (.xwrbitsB 0x68 0x1A 4 3 5 0) ∧
  decode 0x0000000000000000 = .error .noOperation ∧
  decode 0x0000000000023B41 = .error (.mustBeZero 7 6) ∧
  decode 0x0001000000023B01 = .error (.mustBeZero 63 48) ∧
  decode 0x0000010503041A08 = .error (.mustBeZero 47 40)

/-! ## Steps -/

/-- A step with a command pending runs the instruction the command word decodes to (R25, R29). -/
def Obligations.StepRunsTheDecodedCommand : Prop :=
  (∀ (s : State) (c : BitVec 64) (i : Instr), s.cmd = some c → decode c = .ok i → step s = exec i s) ∧
  (∀ (s : State) (nbits w : Nat) (i : Instr), decodeTableWord nbits w = some i →
    step (s.withFetchWord nbits w) = exec i (s.withFetchWord nbits w))

/-- An illegal word is reported by STATUS.ILL = 1 with RES = 0, makes no transport call and changes no other state;
the host is released, so the next command is accepted (R194). -/
def Obligations.IllegalWordOnlySetsStatus : Prop :=
  ∀ (s : State) (c : BitVec 64) (e : Illegal), s.cmd = some c → decode c = .error e →
    ∃ t, step s = .next t ∧ statusIll t.status = true ∧ statusRes t.status = 0 ∧ statusReserved t.status = 0 ∧
      t.cmd = none ∧ t = { s with status := t.status, cmd := none }

/-- If every transport primitive returns, every command, legal or illegal, completes by writing STATUS, with no
fault and no refusal: the host is released, RES is not negative, ILL says whether the word was illegal, and what the
host has yet to do has waited (R190, R192, R123, R66).  The condition is the one D22 asks a termination claim to
name: the model builds it in (log 15, DESIGN CHOICE), and on a transport that stops in a frame the claim is false.
That the completion is the very next step is log 1. -/
def Obligations.EveryCommandCompletes : Prop :=
  ∀ (s : State) (c : BitVec 64), s.cmd = some c →
    ∃ t, step s = .next t ∧ t.cmd = none ∧ statusReserved t.status = 0 ∧ 0 ≤ statusCount t.status ∧
      (statusIll t.status = true ↔ ∃ e, decode c = .error e) ∧ t.inputs = s.inputs ∧ t.hostData = s.hostData

/-- With no command pending and nothing from the host the block waits: a step changes nothing (R210; log 2). -/
def Obligations.IdleBlockWaits : Prop :=
  ∀ s : State, s.cmd = none → s.inputs = [] → step s = .next s

/-! ## The host's registers and reset -/

/-- What the host reads from each register number, as the low bits of a 32-bit value (R35, U17; the 32-bit form is
the model's, log 20).  A read changes nothing of the block. -/
def Obligations.HostReadsTheRegisterMap : Prop :=
  ∀ (s : State) (n : Nat) (rest : List HostInput), s.cmd = none → s.inputs = .read n :: rest →
    ∃ v, step s = .next { s with inputs := rest, hostData := v } ∧
      (n = 0x000 → v = s.bindSel.setWidth 32) ∧ (n = 0x001 → v = s.bindClk) ∧
      (n = 0x002 → v = if s.bindOrder = .msbFirst then 0 else 1) ∧ (n = 0x003 → v = s.bindMode.setWidth 32) ∧
      (n = 0x004 → v = s.rtimeout.setWidth 32) ∧ (n = 0x005 → v = 0) ∧ (n = 0x006 → v = s.status) ∧
      (n = 0x007 → v = s.rdata.setWidth 32) ∧
      (∀ i : Fin 256, n = 0x100 + i.val → v = (s.dbufAt i).setWidth 32) ∧
      (7 < n → n < 0x100 → v = 0) ∧ (0x1FF < n → v = 0)

/-- What a host write does at each register number: RTIMEOUT and DBUF are written, a write of CMD issues the
command, every other number ignores it (R35, R22, R25; log 20). -/
def Obligations.HostWritesTheRegisterMap : Prop :=
  ∀ (s : State) (n : Nat) (v : BitVec 64) (rest : List HostInput), s.cmd = none → s.inputs = .write n v :: rest →
    ∃ t, step s = .next t ∧
      (n = 0x004 → t = { s with inputs := rest, rtimeout := v.setWidth 16 }) ∧
      (n = 0x005 → t = { s with inputs := rest, cmd := some v }) ∧
      (∀ i : Fin 256, n = 0x100 + i.val → t.dbufAt i = v.setWidth 16 ∧ (∀ j, j ≠ i → t.dbufAt j = s.dbufAt j) ∧
        t = { s with inputs := rest, dbuf := t.dbuf }) ∧
      (n < 0x100 → n ≠ 0x004 → n ≠ 0x005 → t = { s with inputs := rest }) ∧
      (0x1FF < n → t = { s with inputs := rest })

/-- The reset state: the Bus Binding and RTIMEOUT at their open parameters, nothing pending, STATUS and RDATA zero,
PHASE idle, no call made and every select line inactive (R34, R210, R211). -/
def Obligations.ResetLeavesTheStatedValues : Prop :=
  State.reset.bindSel = Config.bindSelV ∧ State.reset.bindClk = Config.bindClkV ∧
  State.reset.bindOrder = Config.bindOrderV ∧ State.reset.bindMode = Config.bindModeV ∧
  State.reset.rtimeout = Config.rtimeoutReset ∧ State.reset.cmd = none ∧ State.reset.status = 0 ∧
  State.reset.rdata = 0 ∧ State.reset.phase = .idle ∧ State.reset.trace = [] ∧
  ∀ line, State.reset.lineActive line = false

/-- A reset between commands gives the values of R34 again and makes no transport call (R210; that it is an input
of the host is the model's form, log 17). -/
def Obligations.ResetBetweenCommands : Prop :=
  ∀ (s : State) (rest : List HostInput), s.cmd = none → s.inputs = .reset :: rest →
    ∃ t, step s = .next t ∧ t.bindSel = Config.bindSelV ∧ t.bindClk = Config.bindClkV ∧
      t.bindOrder = Config.bindOrderV ∧ t.bindMode = Config.bindModeV ∧ t.rtimeout = Config.rtimeoutReset ∧
      t.cmd = none ∧ t.status = 0 ∧ t.rdata = 0 ∧ t.phase = .idle ∧ t.trace = s.trace ∧ t.inputs = rest

/-! ## The invariant and the whole-machine rules -/

/-- Every step keeps the invariant: PHASE idle between commands, the calls a whole number of frames, no select line
left active, STATUS well formed, IDX in range (R29, R112, R213, R26, R192, R88).  The model's own:
the frame record is `first` between steps (log 22), a line is inactive before its first SEL (log 16), and a command
leaves in IDX its count of elements (log 10). -/
def Obligations.EveryStepKeepsTheInvariant : Prop :=
  ∀ s t : State, Inv s → step s = .next t → Inv t

/-- The invariant holds after reset: PHASE idle and STATUS zero (R34, R210), IDX in range (R29), no call made
(log 23).  The model's own: every select line is inactive before any frame, which R34 requires of whoever
instantiates the block (log 16), and the frame record is `first`, for which R34 has no row (log 22). -/
def Obligations.ResetMeetsTheInvariant : Prop := Inv State.reset

/-- The Bus Binding takes the instance parameters at reset, and no command and no host access changes it (R22). -/
def Obligations.BindingIsImmutable : Prop :=
  (State.reset.bindSel = Config.bindSelV ∧ State.reset.bindClk = Config.bindClkV ∧
    State.reset.bindOrder = Config.bindOrderV ∧ State.reset.bindMode = Config.bindModeV) ∧
  ∀ s t : State, step s = .next t →
    SameBinding s t ∨ (SameBinding State.reset t ∧ s.cmd = none ∧ ∃ rest, s.inputs = .reset :: rest)

/-- What a command does depends on nothing but its word, the Bus Binding, DBUF and the transport's answers: two
states that differ only in RTIMEOUT, STATUS, RDATA, PHASE, IDX, HALF, WACC and the host's side make the same calls
and end with the same STATUS and DBUF, and with the same RDATA if they began with it (R31, R24, C14). -/
def Obligations.CommandsDependOnBindingAndBufferOnly : Prop :=
  ∀ (s t s' t' : State) (c : BitVec 64), SameInfluences s t → s.cmd = some c → step s = .next s' →
    step t = .next t' →
      SameInfluences s' t' ∧ s'.status = t'.status ∧ (s.rdata = t.rdata → s'.rdata = t'.rdata)

/-- No command reads or writes DBUF[255] (R28): whatever it holds, the calls, STATUS, RDATA and the other entries
are the same, and it keeps its value. -/
def Obligations.LastBufferEntryIsNeverAccessed : Prop :=
  ∀ (s s' t' : State) (c : BitVec 64) (v : Word), s.cmd = some c → step s = .next s' →
    step (s.setDbuf 255 v) = .next t' →
      t'.trace = s'.trace ∧ t'.status = s'.status ∧ t'.rdata = s'.rdata ∧
      (∀ j : Fin 256, j.val ≠ 255 → t'.dbufAt j = s'.dbufAt j) ∧ s'.dbufAt 255 = s.dbufAt 255 ∧ t'.dbufAt 255 = v

/-- Contract of every X-form (R170): the command word with S = 1, whatever its DEVADDR and TIMEOUT, is legal exactly
when the word of the simple form is, and a step on it gives in every state the whole state that a step on the
simple form gives. -/
def Obligations.ShimWordsActAsTheirCounterparts : Prop :=
  ∀ (s : State) (c : BitVec 64), c.getLsbD 5 = true →
    step (s.issue c) = step (s.issue (c &&& 0x0000FFFFFFFFFFDF)) ∧
    ((∃ i, decode c = .ok i) ↔ ∃ i, decode (c &&& 0x0000FFFFFFFFFFDF) = .ok i)

/-- A legal command adds to the trace a whole number of frames: one for every instruction but the bit and field
writes, which make two; each frame has one SEL, one DESEL and one exchange more than it has payload octets, and
one BEGIN and one END beside them (R112, R113, R120). -/
def Obligations.CommandsMakeWholeFrames : Prop :=
  ∀ (s t : State) (i : Instr), exec i s = .next t →
    ∃ calls, t.trace = s.trace ++ calls ∧ wholeFrames calls ∧
      calls.countP Call.isSel = frameCount i ∧ calls.countP Call.isDesel = frameCount i ∧
      calls.countP Call.isXchg = payloadCount i + frameCount i ∧
      calls.length = payloadCount i + 5 * frameCount i

/-- An instruction uses up exactly one answer of the transport for each exchange it makes (R116, R121, R122; the
form of the answers is the model's, log 3). -/
def Obligations.OneAnswerForEachExchange : Prop :=
  ∀ (s t : State) (i : Instr) (k : Nat), exec i s = .next t →
    t.answerAt k = s.answerAt (payloadCount i + frameCount i + k)

/-- No answer of the transport steers the calls (R122): two states that agree on the Bus Binding and DBUF, whatever
the transport answers in each, make the same calls with the same octets sent, but for the payload of the write-back
frame of a bit or field write, where only the octets sent may differ. -/
def Obligations.AnswersDoNotSteerTheCalls : Prop :=
  ∀ (s t s' t' : State) (i : Instr), SameBinding s t → t.dbuf = s.dbuf → exec i s = .next s' → exec i t = .next t' →
    ∃ cs ct, s'.trace = s.trace ++ cs ∧ t'.trace = t.trace ++ ct ∧ ct.map Call.blank = cs.map Call.blank ∧
      (frameCount i = 1 → ct.map Call.unanswered = cs.map Call.unanswered) ∧
      (frameCount i = 2 → (ct.take (payloadCount i / 2 + 8)).map Call.unanswered
        = (cs.take (payloadCount i / 2 + 8)).map Call.unanswered)

/-- After every instruction the sequencer is idle and the assembler is between words; WACC holds the last word
assembled, and is unchanged by an instruction that assembles none (R29, R30, R124, R132; that IDX is an index of at
most 255 and which frame is recorded are the model's, log 10, log 22). -/
def Obligations.SequencerAndAssemblerAfterACommand : Prop :=
  ∀ (s t : State) (i : Instr), exec i s = .next t →
    t.phase = .idle ∧ t.frameNo = .first ∧ t.half = false ∧ t.idx ≤ 255 ∧
      (wordReads i = 0 → t.wacc = s.wacc) ∧ (0 < wordReads i → t.wacc = s.wordAt (2 * wordReads i - 1))

/-! ## The instructions.  Each word is written out in the fields of R81 and R82, from bit 63 down: TIMEOUT and DEVADDR
(zero in a simple form), bits 47:16 in parentheses, ADDR, and bits 7:0.

## Arrays -/

/-- RDBA and XRDBA (R130, R171). -/
def Obligations.ReadByteArrayFillsBuffer : Prop :=
  ∀ (s : State) (a count devAddr timeout : BitVec 8),
    decode (0#16 ++ (0#24 ++ count) ++ a ++ 0x01#8 : BitVec 64) = .ok (.rdba a count) ∧
    decode (timeout ++ devAddr ++ (0#24 ++ count) ++ a ++ 0x21#8 : BitVec 64)
      = .ok (.xrdba devAddr a count timeout) ∧
    ∀ i, i = .rdba a count ∨ i = .xrdba devAddr a count timeout →
      ∃ t, exec i s = .next t ∧
        Completed s t (BitVec.ofNat 16 count.toNat) s.rdata
          (fun j => if j.val < count.toNat then (s.answerAt (1 + j.val)).setWidth 16 else s.dbufAt j)
          (s.readFrame 0 a count.toNat)

/-- RDWA and XRDWA (R131, R172): the count is of words; word `j` is octets `2j` and `2j+1` joined by BIND_ORDER. -/
def Obligations.ReadWordArrayFillsBuffer : Prop :=
  ∀ (s : State) (a count devAddr timeout : BitVec 8),
    decode (0#16 ++ (0#24 ++ count) ++ a ++ 0x11#8 : BitVec 64) = .ok (.rdwa a count) ∧
    decode (timeout ++ devAddr ++ (0#24 ++ count) ++ a ++ 0x31#8 : BitVec 64)
      = .ok (.xrdwa devAddr a count timeout) ∧
    ∀ i, i = .rdwa a count ∨ i = .xrdwa devAddr a count timeout →
      ∃ t, exec i s = .next t ∧ t.half = false ∧
        (0 < count.toNat → t.wacc = s.wordAt (2 * count.toNat - 1)) ∧
        Completed s t (BitVec.ofNat 16 count.toNat) s.rdata
          (fun j => if j.val < count.toNat then
              joinOctets s.bindOrder (s.answerAt (1 + 2 * j.val)) (s.answerAt (2 + 2 * j.val))
            else s.dbufAt j)
          (s.readFrame 0 a (2 * count.toNat))

/-- WRBA and XWRBA (R133, R173): bits 7:0 of DBUF[0..count-1] in order. -/
def Obligations.WriteByteArraySendsBuffer : Prop :=
  ∀ (s : State) (a count devAddr timeout : BitVec 8),
    decode (0#16 ++ (0#24 ++ count) ++ a ++ 0x02#8 : BitVec 64) = .ok (.wrba a count) ∧
    decode (timeout ++ devAddr ++ (0#24 ++ count) ++ a ++ 0x22#8 : BitVec 64)
      = .ok (.xwrba devAddr a count timeout) ∧
    ∀ i, i = .wrba a count ∨ i = .xwrba devAddr a count timeout →
      ∃ t, exec i s = .next t ∧
        Completed s t 1 s.rdata s.dbufAt
          (s.writeFrame 0 a (((List.finRange 256).take count.toNat).map fun j => (s.dbufAt j).extractLsb' 0 8))

/-- WRWA and XWRWA (R134, R174): each word of DBUF[0..count-1] high octet first, whatever BIND_ORDER is; and
WordOctets for both settings of WR_WORD_ORDER. -/
def Obligations.WriteWordArraySendsBuffer : Prop :=
  (∀ (order : ByteOrder) (x : Word),
    wordOctets .fixedMsbFirst order x = [x.extractLsb' 8 8, x.extractLsb' 0 8] ∧
    wordOctets .followOrder .msbFirst x = [x.extractLsb' 8 8, x.extractLsb' 0 8] ∧
    wordOctets .followOrder .lsbFirst x = [x.extractLsb' 0 8, x.extractLsb' 8 8]) ∧
  ∀ (s : State) (a count devAddr timeout : BitVec 8),
    decode (0#16 ++ (0#24 ++ count) ++ a ++ 0x12#8 : BitVec 64) = .ok (.wrwa a count) ∧
    decode (timeout ++ devAddr ++ (0#24 ++ count) ++ a ++ 0x32#8 : BitVec 64)
      = .ok (.xwrwa devAddr a count timeout) ∧
    ∀ i, i = .wrwa a count ∨ i = .xwrwa devAddr a count timeout →
      ∃ t, exec i s = .next t ∧
        Completed s t 1 s.rdata s.dbufAt
          (s.writeFrame 0 a (((List.finRange 256).take count.toNat).flatMap fun j =>
            [(s.dbufAt j).extractLsb' 8 8, (s.dbufAt j).extractLsb' 0 8]))

/-! ## Single registers -/

/-- RDB and XRDB (R135, R175). -/
def Obligations.ReadOctetDelivers : Prop :=
  ∀ (s : State) (a devAddr timeout : BitVec 8),
    decode (0#16 ++ 0#32 ++ a ++ 0x03#8 : BitVec 64) = .ok (.rdb a) ∧
    decode (timeout ++ devAddr ++ 0#32 ++ a ++ 0x23#8 : BitVec 64) = .ok (.xrdb devAddr a timeout) ∧
    ∀ i, i = .rdb a ∨ i = .xrdb devAddr a timeout →
      ∃ t, exec i s = .next t ∧
        Completed s t 1 ((s.answerAt 1).setWidth 16) s.dbufAt (s.readFrame 0 a 1)

/-- RDW and XRDW (R136, R176). -/
def Obligations.ReadWordDelivers : Prop :=
  ∀ (s : State) (a devAddr timeout : BitVec 8),
    decode (0#16 ++ 0#32 ++ a ++ 0x13#8 : BitVec 64) = .ok (.rdw a) ∧
    decode (timeout ++ devAddr ++ 0#32 ++ a ++ 0x33#8 : BitVec 64) = .ok (.xrdw devAddr a timeout) ∧
    ∀ i, i = .rdw a ∨ i = .xrdw devAddr a timeout →
      ∃ t, exec i s = .next t ∧ t.half = false ∧ t.wacc = s.wordAt 1 ∧
        Completed s t 1 (joinOctets s.bindOrder (s.answerAt 1) (s.answerAt 2)) s.dbufAt (s.readFrame 0 a 2)

/-- WRB and XWRB (R137, R177). -/
def Obligations.WriteOctetSends : Prop :=
  ∀ (s : State) (a value devAddr timeout : BitVec 8),
    decode (0#16 ++ (0#8 ++ value ++ 0#16) ++ a ++ 0x04#8 : BitVec 64) = .ok (.wrb a value) ∧
    decode (timeout ++ devAddr ++ (0#8 ++ value ++ 0#16) ++ a ++ 0x24#8 : BitVec 64)
      = .ok (.xwrb devAddr a value timeout) ∧
    ∀ i, i = .wrb a value ∨ i = .xwrb devAddr a value timeout →
      ∃ t, exec i s = .next t ∧ Completed s t 1 s.rdata s.dbufAt (s.writeFrame 0 a [value])

/-- WRW and XWRW (R138, R178): high octet first, whatever BIND_ORDER is. -/
def Obligations.WriteWordSends : Prop :=
  ∀ (s : State) (value : Word) (a devAddr timeout : BitVec 8),
    decode (0#16 ++ (value ++ 0#16) ++ a ++ 0x14#8 : BitVec 64) = .ok (.wrw a value) ∧
    decode (timeout ++ devAddr ++ (value ++ 0#16) ++ a ++ 0x34#8 : BitVec 64)
      = .ok (.xwrw devAddr a value timeout) ∧
    ∀ i, i = .wrw a value ∨ i = .xwrw devAddr a value timeout →
      ∃ t, exec i s = .next t ∧
        Completed s t 1 s.rdata s.dbufAt (s.writeFrame 0 a [value.extractLsb' 8 8, value.extractLsb' 0 8])

/-! ## Bits and fields: reads.  For operands outside the register the value is some value, and all the rest is as
the rule says (R163). -/

/-- RDBIT.B and XRDBIT.B (R153, R179); a read that reported zero elements would leave RDATA as it was. -/
def Obligations.ReadBitOfOctetDelivers : Prop :=
  (∀ (k : Nat) (r : ReadResult 8), r.n = 0 →
    Completed r.after (finishReadBit k r) 0 r.after.rdata r.after.dbufAt []) ∧
  ∀ (s : State) (a devAddr timeout : BitVec 8) (n : BitVec 4),
    decode (0#16 ++ (0#28 ++ n) ++ a ++ 0x05#8 : BitVec 64) = .ok (.rdbitB a n.toNat) ∧
    decode (timeout ++ devAddr ++ (0#28 ++ n) ++ a ++ 0x25#8 : BitVec 64) = .ok (.xrdbitB devAddr a n.toNat timeout) ∧
    ∀ i, i = .rdbitB a n.toNat ∨ i = .xrdbitB devAddr a n.toNat timeout →
      ∃ t, ∃ v : Octet, exec i s = .next t ∧ (n.toNat ≤ 7 → v = s.answerAt 1 &&& 1#8 <<< n.toNat) ∧
        Completed s t 1 (v.setWidth 16) s.dbufAt (s.readFrame 0 a 1)

/-- RDBIT.W and XRDBIT.W (R154, R180), with the same branch. -/
def Obligations.ReadBitOfWordDelivers : Prop :=
  (∀ (k : Nat) (r : ReadResult 16), r.n = 0 →
    Completed r.after (finishReadBit k r) 0 r.after.rdata r.after.dbufAt []) ∧
  ∀ (s : State) (a devAddr timeout : BitVec 8) (n : BitVec 4),
    decode (0#16 ++ (0#28 ++ n) ++ a ++ 0x15#8 : BitVec 64) = .ok (.rdbitW a n.toNat) ∧
    decode (timeout ++ devAddr ++ (0#28 ++ n) ++ a ++ 0x35#8 : BitVec 64) = .ok (.xrdbitW devAddr a n.toNat timeout) ∧
    ∀ i, i = .rdbitW a n.toNat ∨ i = .xrdbitW devAddr a n.toNat timeout →
      ∃ t, exec i s = .next t ∧ t.half = false ∧ t.wacc = s.wordAt 1 ∧
        Completed s t 1 (joinOctets s.bindOrder (s.answerAt 1) (s.answerAt 2) &&& 1#16 <<< n.toNat) s.dbufAt
          (s.readFrame 0 a 2)

/-- RDBITS.B and XRDBITS.B (R155, R181), with the same branch. -/
def Obligations.ReadFieldOfOctetDelivers : Prop :=
  (∀ (k m : Nat) (r : ReadResult 8), r.n = 0 →
    Completed r.after (finishReadField k m r) 0 r.after.rdata r.after.dbufAt []) ∧
  ∀ (s : State) (a devAddr timeout : BitVec 8) (b : BitVec 4) (l : BitVec 5),
    decode (0#16 ++ (0#19 ++ l ++ 0#4 ++ b) ++ a ++ 0x06#8 : BitVec 64) = .ok (.rdbitsB a b.toNat l.toNat) ∧
    decode (timeout ++ devAddr ++ (0#19 ++ l ++ 0#4 ++ b) ++ a ++ 0x26#8 : BitVec 64)
      = .ok (.xrdbitsB devAddr a b.toNat l.toNat timeout) ∧
    ∀ i, i = .rdbitsB a b.toNat l.toNat ∨ i = .xrdbitsB devAddr a b.toNat l.toNat timeout →
      ∃ t, ∃ v : Octet, exec i s = .next t ∧
        (validField b.toNat l.toNat 8 = true → v = extractField (s.answerAt 1) b.toNat l.toNat) ∧
        Completed s t 1 (v.setWidth 16) s.dbufAt (s.readFrame 0 a 1)

/-- RDBITS.W and XRDBITS.W (R156, R182), with the same branch. -/
def Obligations.ReadFieldOfWordDelivers : Prop :=
  (∀ (k m : Nat) (r : ReadResult 16), r.n = 0 →
    Completed r.after (finishReadField k m r) 0 r.after.rdata r.after.dbufAt []) ∧
  ∀ (s : State) (a devAddr timeout : BitVec 8) (b : BitVec 4) (l : BitVec 5),
    decode (0#16 ++ (0#19 ++ l ++ 0#4 ++ b) ++ a ++ 0x16#8 : BitVec 64) = .ok (.rdbitsW a b.toNat l.toNat) ∧
    decode (timeout ++ devAddr ++ (0#19 ++ l ++ 0#4 ++ b) ++ a ++ 0x36#8 : BitVec 64)
      = .ok (.xrdbitsW devAddr a b.toNat l.toNat timeout) ∧
    ∀ i, i = .rdbitsW a b.toNat l.toNat ∨ i = .xrdbitsW devAddr a b.toNat l.toNat timeout →
      ∃ t, ∃ v : Word, exec i s = .next t ∧ t.half = false ∧ t.wacc = s.wordAt 1 ∧
        (validField b.toNat l.toNat 16 = true →
          v = extractField (joinOctets s.bindOrder (s.answerAt 1) (s.answerAt 2)) b.toNat l.toNat) ∧
        Completed s t 1 v s.dbufAt (s.readFrame 0 a 2)

/-! ## Bits and fields: writes, a read frame and then a write frame -/

/-- WRBIT.B and XWRBIT.B (R157, R183); the count of the read is not tested. -/
def Obligations.WriteBitOfOctetReadsThenWrites : Prop :=
  (∀ (k : Nat) (v : Bool) (addr : Octet) (r : ReadResult 8),
    finishWriteBit (writeReg8 addr) k v r = finishWriteBit (writeReg8 addr) k v { r with n := 1 }) ∧
  ∀ (s : State) (a devAddr timeout : BitVec 8) (n : BitVec 4) (value : Bool),
    decode (0#16 ++ (0#15 ++ BitVec.ofBool value ++ 0#12 ++ n) ++ a ++ 0x07#8 : BitVec 64)
      = .ok (.wrbitB a n.toNat value) ∧
    decode (timeout ++ devAddr ++ (0#15 ++ BitVec.ofBool value ++ 0#12 ++ n) ++ a ++ 0x27#8 : BitVec 64)
      = .ok (.xwrbitB devAddr a n.toNat value timeout) ∧
    ∀ i, i = .wrbitB a n.toNat value ∨ i = .xwrbitB devAddr a n.toNat value timeout →
      ∃ t, ∃ v : Octet, exec i s = .next t ∧
        (n.toNat ≤ 7 →
          v = if value then s.answerAt 1 ||| 1#8 <<< n.toNat else s.answerAt 1 &&& ~~~(1#8 <<< n.toNat)) ∧
        Completed s t 1 s.rdata s.dbufAt (s.readFrame 0 a 1 ++ s.writeFrame 2 a [v])

/-- WRBIT.W and XWRBIT.W (R158, R184); the count of the read is not tested. -/
def Obligations.WriteBitOfWordReadsThenWrites : Prop :=
  (∀ (k : Nat) (v : Bool) (addr : Octet) (r : ReadResult 16),
    finishWriteBit (writeReg16 Config.wrWordOrder addr) k v r = finishWriteBit (writeReg16 Config.wrWordOrder addr) k v { r with n := 1 }) ∧
  ∀ (s : State) (a devAddr timeout : BitVec 8) (n : BitVec 4) (value : Bool),
    decode (0#16 ++ (0#15 ++ BitVec.ofBool value ++ 0#12 ++ n) ++ a ++ 0x17#8 : BitVec 64)
      = .ok (.wrbitW a n.toNat value) ∧
    decode (timeout ++ devAddr ++ (0#15 ++ BitVec.ofBool value ++ 0#12 ++ n) ++ a ++ 0x37#8 : BitVec 64)
      = .ok (.xwrbitW devAddr a n.toNat value timeout) ∧
    ∀ i, i = .wrbitW a n.toNat value ∨ i = .xwrbitW devAddr a n.toNat value timeout →
      ∃ t, ∃ v : Word, exec i s = .next t ∧ t.half = false ∧ t.wacc = s.wordAt 1 ∧
        v = (if value then joinOctets s.bindOrder (s.answerAt 1) (s.answerAt 2) ||| 1#16 <<< n.toNat
          else joinOctets s.bindOrder (s.answerAt 1) (s.answerAt 2) &&& ~~~(1#16 <<< n.toNat)) ∧
        Completed s t 1 s.rdata s.dbufAt
          (s.readFrame 0 a 2 ++ s.writeFrame 3 a [v.extractLsb' 8 8, v.extractLsb' 0 8])

/-- WRBITS.B and XWRBITS.B (R159, R185), with the abort of a read that reports zero elements. -/
def Obligations.WriteFieldOfOctetReadsThenWrites : Prop :=
  (∀ (b l : Nat) (addr value : Octet) (r : ReadResult 8), r.n = 0 →
    Completed r.after (finishWriteField (writeReg8 addr) b l value r) 0 r.after.rdata r.after.dbufAt []) ∧
  ∀ (s : State) (a devAddr timeout value : BitVec 8) (b : BitVec 4) (l : BitVec 5),
    decode (0#16 ++ (0#8 ++ value ++ 0#3 ++ l ++ 0#4 ++ b) ++ a ++ 0x08#8 : BitVec 64)
      = .ok (.wrbitsB a b.toNat l.toNat value) ∧
    decode (timeout ++ devAddr ++ (0#8 ++ value ++ 0#3 ++ l ++ 0#4 ++ b) ++ a ++ 0x28#8 : BitVec 64)
      = .ok (.xwrbitsB devAddr a b.toNat l.toNat value timeout) ∧
    ∀ i, i = .wrbitsB a b.toNat l.toNat value ∨ i = .xwrbitsB devAddr a b.toNat l.toNat value timeout →
      ∃ t, ∃ v : Octet, exec i s = .next t ∧
        (validField b.toNat l.toNat 8 = true → value.toNat < 2 ^ l.toNat →
          v = insertField (s.answerAt 1) b.toNat l.toNat value) ∧
        Completed s t 1 s.rdata s.dbufAt (s.readFrame 0 a 1 ++ s.writeFrame 2 a [v])

/-- WRBITS.W and XWRBITS.W (R160, R186), with the abort of a read that reports zero elements. -/
def Obligations.WriteFieldOfWordReadsThenWrites : Prop :=
  (∀ (b l : Nat) (addr : Octet) (value : Word) (r : ReadResult 16), r.n = 0 →
    Completed r.after (finishWriteField (writeReg16 Config.wrWordOrder addr) b l value r) 0 r.after.rdata
      r.after.dbufAt []) ∧
  ∀ (s : State) (a devAddr timeout : BitVec 8) (value : Word) (b : BitVec 4) (l : BitVec 5),
    decode (0#16 ++ (value ++ 0#3 ++ l ++ 0#4 ++ b) ++ a ++ 0x18#8 : BitVec 64)
      = .ok (.wrbitsW a b.toNat l.toNat value) ∧
    decode (timeout ++ devAddr ++ (value ++ 0#3 ++ l ++ 0#4 ++ b) ++ a ++ 0x38#8 : BitVec 64)
      = .ok (.xwrbitsW devAddr a b.toNat l.toNat value timeout) ∧
    ∀ i, i = .wrbitsW a b.toNat l.toNat value ∨ i = .xwrbitsW devAddr a b.toNat l.toNat value timeout →
      ∃ t, ∃ v : Word, exec i s = .next t ∧ t.half = false ∧ t.wacc = s.wordAt 1 ∧
        (validField b.toNat l.toNat 16 = true → value.toNat < 2 ^ l.toNat →
          v = insertField (joinOctets s.bindOrder (s.answerAt 1) (s.answerAt 2)) b.toNat l.toNat value) ∧
        Completed s t 1 s.rdata s.dbufAt
          (s.readFrame 0 a 2 ++ s.writeFrame 3 a [v.extractLsb' 8 8, v.extractLsb' 0 8])

/-! ## The bit-field unit and the word assembler -/

/-- VALID, FSHIFT, FMASK and BMASK (R151): the mask has exactly bits bitStart down to FSHIFT set. -/
def Obligations.FieldMaskCoversTheField : Prop :=
  ∀ w b l : Nat, w = 8 ∨ w = 16 →
    (validField b l w = true ↔ b ≤ w - 1 ∧ l ≤ w ∧ l ≤ b + 1) ∧
    (validField b l w = true →
      (fshift b l : Int) = (b : Int) - l + 1 ∧ fshift b l ≤ w ∧ (fshift b l = w ↔ l = 0 ∧ b = w - 1) ∧
      fmask w b l = BitVec.ofNat w ((2 ^ l - 1) * 2 ^ fshift b l) ∧
      (2 ^ l - 1) * 2 ^ fshift b l < 2 ^ w ∧
      ∀ k, k < w → (fmask w b l).getLsbD k = (decide (fshift b l ≤ k) && decide (k ≤ b))) ∧
    ∀ n, n ≤ w - 1 → ∀ k, k < w → (bmask w n).getLsbD k = decide (k = n)

/-- EXTRACT is the field right-aligned and INSERT replaces the field and no other bit (R152). -/
def Obligations.ExtractAndInsertActOnTheField : Prop :=
  ∀ (w b l : Nat) (x value : BitVec w), w = 8 ∨ w = 16 → validField b l w = true →
    (∀ k, k < w → (extractField x b l).getLsbD k = (decide (k < l) && x.getLsbD (fshift b l + k))) ∧
    (extractField x b l).toNat < 2 ^ l ∧
    (value.toNat < 2 ^ l → ∀ k, k < w → (insertField x b l value).getLsbD k =
      if fshift b l ≤ k ∧ k ≤ b then value.getLsbD (k - fshift b l) else x.getLsbD k)

/-- Extracting and re-inserting a field leaves the register unchanged, and a field reads back what was inserted
(R162). -/
def Obligations.FieldRoundTrip : Prop :=
  ∀ (w b l : Nat) (x value : BitVec w), w = 8 ∨ w = 16 → validField b l w = true →
    insertField x b l (extractField x b l) = x ∧
    (value.toNat < 2 ^ l → extractField (insertField x b l value) b l = value)

/-- The word assembler (R132): from HALF = 0 the first octet goes to the half of WACC that BIND_ORDER names and
completes no word, the second goes to the other half and completes the word joined by BIND_ORDER; HALF is 0 again,
and nothing but HALF and WACC changes. -/
def Obligations.AssemblerJoinsTwoOctets : Prop :=
  ∀ (s : State) (o1 o2 : Octet), s.half = false →
    (assemble o1 s).1 = none ∧
    (assemble o1 s).2 = { s with
      half := true
      wacc := if s.bindOrder = .msbFirst then o1 ++ s.wacc.extractLsb' 0 8 else s.wacc.extractLsb' 8 8 ++ o1 } ∧
    (assemble o2 (assemble o1 s).2).1 = some (if s.bindOrder = .msbFirst then o1 ++ o2 else o2 ++ o1) ∧
    (assemble o2 (assemble o1 s).2).2 = { s with
      half := false, wacc := if s.bindOrder = .msbFirst then o1 ++ o2 else o2 ++ o1 }

/-! ## Rules over several instructions -/

/-- A read of address `a` and a read of `a | 0x80` are the same command, for each simple read instruction (R52,
R217). -/
def Obligations.ReadFlagIsOredIn : Prop :=
  ∀ (s : State) (a count : BitVec 8) (b l : Nat),
    exec (.rdba (a ||| 0x80) count) s = exec (.rdba a count) s ∧
    exec (.rdwa (a ||| 0x80) count) s = exec (.rdwa a count) s ∧
    exec (.rdb (a ||| 0x80)) s = exec (.rdb a) s ∧ exec (.rdw (a ||| 0x80)) s = exec (.rdw a) s ∧
    exec (.rdbitB (a ||| 0x80) b) s = exec (.rdbitB a b) s ∧
    exec (.rdbitW (a ||| 0x80) b) s = exec (.rdbitW a b) s ∧
    exec (.rdbitsB (a ||| 0x80) b l) s = exec (.rdbitsB a b l) s ∧
    exec (.rdbitsW (a ||| 0x80) b l) s = exec (.rdbitsW a b l) s

/-- The mixed-width view (R56): a word read as two octets gives the octets in wire order, and a word write puts on
the wire what a byte write of its high and low octet does. -/
def Obligations.WordsAreTwoOctetsOnTheWire : Prop :=
  ∀ (s : State) (a : Octet) (v : Word),
    (∃ t u, exec (.rdba a 2) s = .next t ∧ exec (.rdwa a 1) s = .next u ∧ t.trace = u.trace ∧
      t.dbufAt 0 = (s.answerAt 1).setWidth 16 ∧ t.dbufAt 1 = (s.answerAt 2).setWidth 16 ∧
      u.dbufAt 0 = joinOctets s.bindOrder ((t.dbufAt 0).extractLsb' 0 8) ((t.dbufAt 1).extractLsb' 0 8)) ∧
    (∃ t u, exec (.wrwa a 1) (s.setDbuf 0 v) = .next t ∧
      exec (.wrba a 2) ((s.setDbuf 0 ((v.extractLsb' 8 8).setWidth 16)).setDbuf 1 ((v.extractLsb' 0 8).setWidth 16))
        = .next u ∧ t.trace = u.trace)

/-- A word read-modify-write that changes no bit sends the octets back in the order they came under MSB_FIRST, and
swapped under LSB_FIRST (R164, R216). -/
def Obligations.WordWriteBackSwapsUnderLsbFirst : Prop :=
  ∀ (s : State) (a : Octet) (b : Nat), b ≤ 15 →
    ∃ t, exec (.wrbitsW a b 0 0) s = .next t ∧
      (s.bindOrder = .msbFirst →
        t.trace = s.trace ++ s.readFrame 0 a 2 ++ s.writeFrame 3 a [s.answerAt 1, s.answerAt 2]) ∧
      (s.bindOrder = .lsbFirst →
        t.trace = s.trace ++ s.readFrame 0 a 2 ++ s.writeFrame 3 a [s.answerAt 2, s.answerAt 1])

/-- Reading a field and writing it back, when the device answers the second read as it did the first, sends the
octets it answered: RDBITS then WRBITS, octet registers, and word registers under MSB_FIRST (R162, R164). -/
def Obligations.FieldReadThenWriteSendsTheSame : Prop :=
  ∀ (s : State) (a : Octet) (b l : Nat),
    (validField b l 8 = true →
      ∃ t u, exec (.rdbitsB a b l) s = .next t ∧
        exec (.wrbitsB a b l (t.rdata.extractLsb' 0 8)) t = .next u ∧
        (t.answerAt 1 = s.answerAt 1 →
          u.trace = t.trace ++ t.readFrame 0 a 1 ++ t.writeFrame 2 a [s.answerAt 1])) ∧
    (validField b l 16 = true → s.bindOrder = .msbFirst →
      ∃ t u, exec (.rdbitsW a b l) s = .next t ∧ exec (.wrbitsW a b l t.rdata) t = .next u ∧
        (t.answerAt 1 = s.answerAt 1 → t.answerAt 2 = s.answerAt 2 →
          u.trace = t.trace ++ t.readFrame 0 a 2 ++ t.writeFrame 3 a [s.answerAt 1, s.answerAt 2]))

/-- Read, write the same value, read again (R225): WRB sends exactly the octet RDB captured, and when the device
answers the second read with the octet written, RDATA is the same again. -/
def Obligations.OctetReadWriteReadIsStable : Prop :=
  ∀ (s : State) (a : Octet),
    ∃ t u v, exec (.rdb a) s = .next t ∧ exec (.wrb a (t.rdata.extractLsb' 0 8)) t = .next u ∧
      exec (.rdb a) u = .next v ∧ t.rdata = (s.answerAt 1).setWidth 16 ∧
      u.trace = t.trace ++ t.writeFrame 0 a [s.answerAt 1] ∧
      (u.answerAt 1 = s.answerAt 1 → v.rdata = t.rdata)
end

