-- ==== Sys2Proof/Laws/Encoding.lean ====
section
/-! SUPPORT. The bits and fields of an encoded command word (30_encoding.md R81, R82). -/

namespace Sys2Proof

/-- Zeros above a field add nothing to its bits. -/
theorem getLsbD_zeros_above {n m : Nat} (x : BitVec n) (i : Nat) :
    (if i < n then x.getLsbD i else (0#m).getLsbD (i - n)) = x.getLsbD i := by
  by_cases h : i < n
  · rw [if_pos h]
  · rw [if_neg h, BitVec.getLsbD_of_ge x i (by omega)]; simp

/-! ## The word (R81) -/

/-- Every bit of a packed word. -/
theorem pack_getLsbD (op : Op) (w s : Bool) (a : Octet) (mid : BitVec 32) (d t : Octet) (i : Nat) :
    (pack op w s a mid d t).getLsbD i =
      if i < 4 then op.code.getLsbD i
      else if i < 5 then w
      else if i < 6 then s
      else if i < 8 then false
      else if i < 16 then a.getLsbD (i - 8)
      else if i < 48 then mid.getLsbD (i - 16)
      else if i < 56 then d.getLsbD (i - 48)
      else t.getLsbD (i - 56) := by
  unfold pack
  rw [BitVec.getLsbD_append]
  refine ite_congr rfl (fun _ => rfl) (fun h4 => ?_)
  rw [BitVec.getLsbD_append]
  refine ite_congr (propext (by omega)) (fun h => ?_) (fun h5 => ?_)
  · rw [show i - 4 = 0 by omega]; cases w <;> rfl
  rw [BitVec.getLsbD_append]
  refine ite_congr (propext (by omega)) (fun h => ?_) (fun h6 => ?_)
  · rw [show i - 4 - 1 = 0 by omega]; cases s <;> rfl
  rw [BitVec.getLsbD_append]
  refine ite_congr (propext (by omega)) (fun h => by simp) (fun h8 => ?_)
  rw [BitVec.getLsbD_append]
  refine ite_congr (propext (by omega)) (fun h => by congr 1) (fun h16 => ?_)
  rw [BitVec.getLsbD_append]
  refine ite_congr (propext (by omega)) (fun h => by congr 1) (fun h48 => ?_)
  rw [BitVec.getLsbD_append]
  exact ite_congr (propext (by omega)) (fun h => by congr 1) (fun h56 => by congr 1)

section
variable (op : Op) (w s : Bool) (a : Octet) (mid : BitVec 32) (d t : Octet)

@[simp] theorem fieldOp_pack : fieldOp (pack op w s a mid d t) = op.code := by
  apply BitVec.eq_of_getLsbD_eq
  intro i hi
  simp [fieldOp, pack_getLsbD, hi]

@[simp] theorem fieldW_pack : fieldW (pack op w s a mid d t) = w := by
  rw [fieldW, pack_getLsbD]; rfl

@[simp] theorem fieldS_pack : fieldS (pack op w s a mid d t) = s := by
  rw [fieldS, pack_getLsbD]; rfl

@[simp] theorem fieldAddr_pack : fieldAddr (pack op w s a mid d t) = a := by
  apply BitVec.eq_of_getLsbD_eq
  intro i hi
  simp [fieldAddr, pack_getLsbD, hi, show ¬ 8 + i < 4 by omega, show ¬ 8 + i < 5 by omega,
    show ¬ 8 + i < 6 by omega, show 8 + i < 16 by omega]

@[simp] theorem fieldDevAddr_pack : fieldDevAddr (pack op w s a mid d t) = d := by
  apply BitVec.eq_of_getLsbD_eq
  intro i hi
  simp [fieldDevAddr, pack_getLsbD, hi, show ¬ 48 + i < 4 by omega, show ¬ 48 + i < 5 by omega,
    show ¬ 48 + i < 6 by omega, show ¬ 48 + i < 8 by omega, show ¬ 48 + i < 16 by omega, show 48 + i < 56 by omega]

@[simp] theorem fieldTimeout_pack : fieldTimeout (pack op w s a mid d t) = t := by
  apply BitVec.eq_of_getLsbD_eq
  intro i hi
  simp [fieldTimeout, pack_getLsbD, hi, show ¬ 56 + i < 4 by omega, show ¬ 56 + i < 5 by omega,
    show ¬ 56 + i < 6 by omega, show ¬ 56 + i < 8 by omega, show ¬ 56 + i < 16 by omega,
    show ¬ 56 + i < 48 by omega]

/-- Bits `lo + n - 1 : lo` lie in `mid` when `16 ≤ lo` and `lo + n ≤ 48`. -/
theorem extract_pack_mid (lo n : Nat) (h1 : 16 ≤ lo) (h2 : lo + n ≤ 48) :
    (pack op w s a mid d t).extractLsb' lo n = mid.extractLsb' (lo - 16) n := by
  apply BitVec.eq_of_getLsbD_eq
  intro i hi
  simp [pack_getLsbD, hi, show ¬ lo + i < 4 by omega, show ¬ lo + i < 5 by omega, show ¬ lo + i < 6 by omega,
    show ¬ lo + i < 8 by omega, show ¬ lo + i < 16 by omega, show lo + i < 48 by omega,
    show lo + i - 16 = lo - 16 + i by omega]

/-- A must-be-zero range inside bits 47:16 is zero when `mid` is zero there. -/
theorem rangeZero_pack_mid (hi lo : Nat) (h1 : 16 ≤ lo) (h2 : lo ≤ hi) (h3 : hi < 48) :
    rangeZero (pack op w s a mid d t) (hi, lo) = (mid.extractLsb' (lo - 16) (hi - lo + 1) == 0) := by
  rw [rangeZero, extract_pack_mid op w s a mid d t lo (hi - lo + 1) h1 (by omega)]

@[simp] theorem rangeZero_pack_7_6 : rangeZero (pack op w s a mid d t) (7, 6) = true := by
  rw [rangeZero, beq_iff_eq]
  apply BitVec.eq_of_getLsbD_eq
  intro i hi
  simp [pack_getLsbD, show ¬ 6 + i < 4 by omega, show 6 + i < 8 by omega]
  intro h; omega

@[simp] theorem rangeZero_pack_63_48 : rangeZero (pack op w s a mid 0#8 0#8) (63, 48) = true := by
  rw [rangeZero, beq_iff_eq]
  apply BitVec.eq_of_getLsbD_eq
  intro i hi
  simp [pack_getLsbD, show ¬ 48 + i < 4 by omega, show ¬ 48 + i < 5 by omega,
    show ¬ 48 + i < 6 by omega, show ¬ 48 + i < 8 by omega, show ¬ 48 + i < 16 by omega]

end

/-! ## Bits 47:16 of each format (R82) -/

theorem midA_getLsbD (n : BitVec 8) (i : Nat) : (midA n).getLsbD i = n.getLsbD i := by
  unfold midA
  rw [BitVec.getLsbD_append]
  exact getLsbD_zeros_above n i

theorem midR1_getLsbD (i : Nat) : midR1.getLsbD i = false := by simp [midR1]

theorem midW1B_getLsbD (v : Octet) (i : Nat) :
    (midW1B v).getLsbD i = if i < 16 then false else v.getLsbD (i - 16) := by
  unfold midW1B
  rw [BitVec.getLsbD_append]
  refine ite_congr rfl (fun _ => by simp) (fun h => ?_)
  rw [BitVec.getLsbD_append]
  exact getLsbD_zeros_above v (i - 16)

theorem midW1W_getLsbD (v : Word) (i : Nat) :
    (midW1W v).getLsbD i = if i < 16 then false else v.getLsbD (i - 16) := by
  unfold midW1W
  rw [BitVec.getLsbD_append]
  exact ite_congr rfl (fun _ => by simp) (fun h => rfl)

theorem midB_getLsbD (n i : Nat) : (midB n).getLsbD i = (BitVec.ofNat 4 n).getLsbD i := by
  unfold midB
  rw [BitVec.getLsbD_append]
  exact getLsbD_zeros_above (BitVec.ofNat 4 n) i

theorem midBW_getLsbD (n : Nat) (v : Bool) (i : Nat) :
    (midBW n v).getLsbD i =
      if i < 4 then (BitVec.ofNat 4 n).getLsbD i else if i < 16 then false else if i < 17 then v else false := by
  unfold midBW
  rw [BitVec.getLsbD_append]
  refine ite_congr rfl (fun _ => rfl) (fun h => ?_)
  rw [BitVec.getLsbD_append]
  refine ite_congr (propext (by omega)) (fun _ => by simp) (fun h => ?_)
  rw [BitVec.getLsbD_append]
  refine ite_congr (propext (by omega)) (fun h => ?_) (fun h => by simp)
  rw [show i - 4 - 12 = 0 by omega]; cases v <;> rfl

theorem midF_getLsbD (b l i : Nat) :
    (midF b l).getLsbD i =
      if i < 4 then (BitVec.ofNat 4 b).getLsbD i else if i < 8 then false
      else (BitVec.ofNat 5 l).getLsbD (i - 8) := by
  unfold midF
  rw [BitVec.getLsbD_append]
  refine ite_congr rfl (fun _ => rfl) (fun h => ?_)
  rw [BitVec.getLsbD_append]
  refine ite_congr (propext (by omega)) (fun _ => by simp) (fun h => ?_)
  rw [BitVec.getLsbD_append, show i - 4 - 4 = i - 8 by omega]
  exact getLsbD_zeros_above (BitVec.ofNat 5 l) (i - 8)

theorem midFWW_getLsbD (b l : Nat) (v : Word) (i : Nat) :
    (midFWW b l v).getLsbD i =
      if i < 4 then (BitVec.ofNat 4 b).getLsbD i else if i < 8 then false
      else if i < 13 then (BitVec.ofNat 5 l).getLsbD (i - 8) else if i < 16 then false
      else v.getLsbD (i - 16) := by
  unfold midFWW
  rw [BitVec.getLsbD_append]
  refine ite_congr rfl (fun _ => rfl) (fun h => ?_)
  rw [BitVec.getLsbD_append]
  refine ite_congr (propext (by omega)) (fun _ => by simp) (fun h => ?_)
  rw [BitVec.getLsbD_append]
  refine ite_congr (propext (by omega)) (fun _ => by congr 1) (fun h => ?_)
  rw [BitVec.getLsbD_append]
  exact ite_congr (propext (by omega)) (fun _ => by simp) (fun h => by congr 1)

theorem midFWB_getLsbD (b l : Nat) (v : Octet) (i : Nat) :
    (midFWB b l v).getLsbD i =
      if i < 4 then (BitVec.ofNat 4 b).getLsbD i else if i < 8 then false
      else if i < 13 then (BitVec.ofNat 5 l).getLsbD (i - 8) else if i < 16 then false
      else v.getLsbD (i - 16) := by
  unfold midFWB
  rw [BitVec.getLsbD_append]
  refine ite_congr rfl (fun _ => rfl) (fun h => ?_)
  rw [BitVec.getLsbD_append]
  refine ite_congr (propext (by omega)) (fun _ => by simp) (fun h => ?_)
  rw [BitVec.getLsbD_append]
  refine ite_congr (propext (by omega)) (fun _ => by congr 1) (fun h => ?_)
  rw [BitVec.getLsbD_append]
  refine ite_congr (propext (by omega)) (fun _ => by simp) (fun h => ?_)
  rw [BitVec.getLsbD_append, show i - 4 - 4 - 5 - 3 = i - 16 by omega]
  exact getLsbD_zeros_above v (i - 16)

/-! ## The operand fields of each format (R82) -/

section
variable (op : Op) (w s : Bool) (a d t : Octet) (n b l : Nat) (v : Word) (o : Octet) (c : BitVec 8) (f : Bool)

@[simp] theorem fieldCount_midA : fieldCount (pack op w s a (midA c) d t) = c := by
  rw [fieldCount, extract_pack_mid _ _ _ _ _ _ _ _ _ (by decide) (by decide)]
  exact BitVec.eq_of_getLsbD_eq fun i hi => by simp [midA_getLsbD, hi]

@[simp] theorem fieldValueB_midW1B : fieldValueB (pack op w s a (midW1B o) d t) = o := by
  rw [fieldValueB, extract_pack_mid _ _ _ _ _ _ _ _ _ (by decide) (by decide)]
  exact BitVec.eq_of_getLsbD_eq fun i hi => by simp [midW1B_getLsbD, hi]

@[simp] theorem fieldValueW_midW1W : fieldValueW (pack op w s a (midW1W v) d t) = v := by
  rw [fieldValueW, extract_pack_mid _ _ _ _ _ _ _ _ _ (by decide) (by decide)]
  exact BitVec.eq_of_getLsbD_eq fun i hi => by simp [midW1W_getLsbD, hi]

@[simp] theorem fieldValueB_midFWB : fieldValueB (pack op w s a (midFWB b l o) d t) = o := by
  rw [fieldValueB, extract_pack_mid _ _ _ _ _ _ _ _ _ (by decide) (by decide)]
  exact BitVec.eq_of_getLsbD_eq fun i hi => by
    simp [midFWB_getLsbD, hi, show ¬ 16 + i < 4 by omega, show ¬ 16 + i < 8 by omega, show ¬ 16 + i < 13 by omega]

@[simp] theorem fieldValueW_midFWW : fieldValueW (pack op w s a (midFWW b l v) d t) = v := by
  rw [fieldValueW, extract_pack_mid _ _ _ _ _ _ _ _ _ (by decide) (by decide)]
  exact BitVec.eq_of_getLsbD_eq fun i hi => by
    simp [midFWW_getLsbD, hi, show ¬ 16 + i < 4 by omega, show ¬ 16 + i < 8 by omega, show ¬ 16 + i < 13 by omega]

@[simp] theorem fieldBval_midBW : fieldBval (pack op w s a (midBW n f) d t) = f := by
  rw [fieldBval, pack_getLsbD, midBW_getLsbD]; rfl

/-- BITPOS is read back from any format whose low four bits hold it. -/
theorem fieldBitPos_of_mid (mid : BitVec 32) (hb : b < 16)
    (h : ∀ i, i < 4 → mid.getLsbD i = (BitVec.ofNat 4 b).getLsbD i) :
    fieldBitPos (pack op w s a mid d t) = b := by
  rw [fieldBitPos, extract_pack_mid _ _ _ _ _ _ _ _ _ (by decide) (by decide),
    show mid.extractLsb' (16 - 16) 4 = BitVec.ofNat 4 b from
      BitVec.eq_of_getLsbD_eq fun i hi => by simp [h i hi, hi]]
  simp [Nat.mod_eq_of_lt hb]

theorem fieldBitPos_midB (hb : b < 16) : fieldBitPos (pack op w s a (midB b) d t) = b :=
  fieldBitPos_of_mid op w s a d t b _ hb fun i hi => by rw [midB_getLsbD]

theorem fieldBitPos_midBW (hb : b < 16) : fieldBitPos (pack op w s a (midBW b f) d t) = b :=
  fieldBitPos_of_mid op w s a d t b _ hb fun i hi => by rw [midBW_getLsbD, if_pos hi]

theorem fieldBitPos_midF (hb : b < 16) : fieldBitPos (pack op w s a (midF b l) d t) = b :=
  fieldBitPos_of_mid op w s a d t b _ hb fun i hi => by rw [midF_getLsbD, if_pos hi]

theorem fieldBitPos_midFWB (hb : b < 16) : fieldBitPos (pack op w s a (midFWB b l o) d t) = b :=
  fieldBitPos_of_mid op w s a d t b _ hb fun i hi => by rw [midFWB_getLsbD, if_pos hi]

theorem fieldBitPos_midFWW (hb : b < 16) : fieldBitPos (pack op w s a (midFWW b l v) d t) = b :=
  fieldBitPos_of_mid op w s a d t b _ hb fun i hi => by rw [midFWW_getLsbD, if_pos hi]

/-- LENGTH is read back from any format whose bits 12:8 hold it. -/
theorem fieldLength_of_mid (mid : BitVec 32) (hl : l < 32)
    (h : ∀ i, i < 5 → mid.getLsbD (8 + i) = (BitVec.ofNat 5 l).getLsbD i) :
    fieldLength (pack op w s a mid d t) = l := by
  rw [fieldLength, extract_pack_mid _ _ _ _ _ _ _ _ _ (by decide) (by decide),
    show mid.extractLsb' (24 - 16) 5 = BitVec.ofNat 5 l from
      BitVec.eq_of_getLsbD_eq fun i hi => by simp [h i hi, hi]]
  simp [Nat.mod_eq_of_lt hl]

theorem fieldLength_midF (hl : l < 32) : fieldLength (pack op w s a (midF b l) d t) = l :=
  fieldLength_of_mid op w s a d t l _ hl fun i hi => by
    rw [midF_getLsbD, if_neg (by omega), if_neg (by omega), show 8 + i - 8 = i by omega]

theorem fieldLength_midFWB (hl : l < 32) : fieldLength (pack op w s a (midFWB b l o) d t) = l :=
  fieldLength_of_mid op w s a d t l _ hl fun i hi => by
    rw [midFWB_getLsbD, if_neg (by omega), if_neg (by omega), if_pos (by omega), show 8 + i - 8 = i by omega]

theorem fieldLength_midFWW (hl : l < 32) : fieldLength (pack op w s a (midFWW b l v) d t) = l :=
  fieldLength_of_mid op w s a d t l _ hl fun i hi => by
    rw [midFWW_getLsbD, if_neg (by omega), if_neg (by omega), if_pos (by omega), show 8 + i - 8 = i by omega]

end

/-! ## Words written out -/

/-- Bits 7:0 of a word written out are OP, W, S and two zeros. -/
theorem lowByte_getLsbD (op : Op) (w s : Bool) (i : Nat) :
    (0#2 ++ BitVec.ofBool s ++ BitVec.ofBool w ++ op.code : BitVec 8).getLsbD i =
      if i < 4 then op.code.getLsbD i else if i < 5 then w else if i < 6 then s else false := by
  rw [BitVec.getLsbD_append]
  refine ite_congr rfl (fun _ => rfl) (fun h4 => ?_)
  rw [BitVec.getLsbD_append]
  refine ite_congr (propext (by omega)) (fun h => ?_) (fun h5 => ?_)
  · rw [show i - 4 = 0 by omega]; cases w <;> rfl
  rw [BitVec.getLsbD_append]
  refine ite_congr (propext (by omega)) (fun h => ?_) (fun h6 => by simp)
  rw [show i - 4 - 1 = 0 by omega]; cases s <;> rfl

/-- A word written out with S = 1 is the packed word of its fields. -/
theorem word_shim (op : Op) (w : Bool) (t d a b : BitVec 8) (mid : BitVec 32)
    (hb : b = 0#2 ++ BitVec.ofBool true ++ BitVec.ofBool w ++ op.code) :
    (t ++ d ++ mid ++ a ++ b : BitVec 64) = pack op w true a mid d t := by
  subst hb
  apply BitVec.eq_of_getLsbD_eq
  intro i hi
  rw [pack_getLsbD, BitVec.getLsbD_append]
  by_cases h8 : i < 8
  · rw [if_pos h8, lowByte_getLsbD, if_pos h8]
  · rw [if_neg h8, if_neg (by omega), if_neg (by omega), if_neg (by omega), if_neg h8, BitVec.getLsbD_append]
    refine ite_congr (propext (by omega)) (fun _ => rfl) (fun h16 => ?_)
    rw [BitVec.getLsbD_append]
    refine ite_congr (propext (by omega)) (fun _ => by congr 1) (fun h48 => ?_)
    rw [BitVec.getLsbD_append]
    exact ite_congr (propext (by omega)) (fun _ => by congr 1) (fun _ => by congr 1)

/-- A word written out with S = 0 is the packed word of its fields. -/
theorem word_simple (op : Op) (w : Bool) (a b : BitVec 8) (mid : BitVec 32)
    (hb : b = 0#2 ++ BitVec.ofBool false ++ BitVec.ofBool w ++ op.code) :
    (0#16 ++ mid ++ a ++ b : BitVec 64) = pack op w false a mid 0 0 := by
  subst hb
  apply BitVec.eq_of_getLsbD_eq
  intro i hi
  rw [pack_getLsbD, BitVec.getLsbD_append]
  by_cases h8 : i < 8
  · rw [if_pos h8, lowByte_getLsbD, if_pos h8]
  · rw [if_neg h8, if_neg (by omega), if_neg (by omega), if_neg (by omega), if_neg h8, BitVec.getLsbD_append]
    refine ite_congr (propext (by omega)) (fun _ => rfl) (fun h16 => ?_)
    rw [BitVec.getLsbD_append]
    exact ite_congr (propext (by omega)) (fun _ => by congr 1) (fun h48 => by simp)

theorem opOf_code (op : Op) : opOf op.code = some op := by cases op <;> rfl

theorem code_of_opOf (v : BitVec 4) (op : Op) (h : opOf v = some op) : v = op.code := by
  revert v; cases op <;> decide

/-- When a word decodes to an instruction (R87, R89). -/
theorem decode_ok_iff (c : BitVec 64) (i : Instr) :
    decode c = .ok i ↔ ∃ op, opOf (fieldOp c) = some op ∧
      (∀ r ∈ zeroRanges op.format (fieldW c) (fieldS c), rangeZero c r = true) ∧
      i = instrOf op (fieldW c) (fieldS c) c := by
  unfold decode
  cases h : opOf (fieldOp c) with
  | none => simp
  | some op =>
    simp only [Option.some.injEq, exists_eq_left']
    cases h2 : (zeroRanges op.format (fieldW c) (fieldS c)).find? (fun r => !rangeZero c r) with
    | none =>
      rw [List.find?_eq_none] at h2
      simp only [Except.ok.injEq]
      constructor
      · rintro rfl; exact ⟨fun r hr => by simpa using h2 r hr, rfl⟩
      · rintro ⟨-, rfl⟩; rfl
    | some r =>
      simp only [reduceCtorEq, false_iff]
      rintro ⟨h3, -⟩
      have hz := List.find?_some h2
      rw [h3 r (List.mem_of_find?_eq_some h2)] at hz
      simp at hz

/-- A packed word whose must-be-zero bits are zero decodes to the instruction of its fields (R89). -/
theorem decode_pack (op : Op) (w s : Bool) (a d t : Octet) (mid : BitVec 32)
    (hs : s = false → d = 0#8 ∧ t = 0#8)
    (h : ∀ r ∈ op.format.zeroRanges w, 16 ≤ r.2 ∧ r.2 ≤ r.1 ∧ r.1 < 48 ∧
      ∀ k, r.2 - 16 ≤ k → k ≤ r.1 - 16 → mid.getLsbD k = false) :
    decode (pack op w s a mid d t) = .ok (instrOf op w s (pack op w s a mid d t)) := by
  have hf : (zeroRanges op.format w s).find? (fun r => !rangeZero (pack op w s a mid d t) r) = none := by
    rw [List.find?_eq_none]
    intro r hr
    simp only [zeroRanges, List.mem_cons, List.mem_append] at hr
    rcases hr with rfl | hr | hr
    · simp
    · cases s
      · obtain ⟨rfl, rfl⟩ := hs rfl
        simp only [Bool.false_eq_true, if_false, List.mem_singleton] at hr
        subst hr
        simp
      · simp at hr
    · obtain ⟨h1, h2, h3, h4⟩ := h r hr
      rw [rangeZero_pack_mid op w s a mid d t r.1 r.2 h1 h2 h3]
      simp only [Bool.not_eq_true', beq_eq_false_iff_ne, ne_eq, not_not]
      exact BitVec.eq_of_getLsbD_eq fun i hi => by
        rw [BitVec.getLsbD_extractLsb', h4 (r.2 - 16 + i) (by omega) (by omega)]
        simp
  simp only [decode, fieldOp_pack, opOf_code, fieldW_pack, fieldS_pack, hf]

end Sys2Proof
end

