-- ==== Sys2Proof/Laws/State.lean ====
section
/-! SUPPORT. One lemma per field per named update of State, so that no later proof unfolds a record update. -/

namespace Sys2Proof.Machine

@[simp] theorem tBegin_bindSel (s : State) : (tBegin s).bindSel = s.bindSel := rfl
@[simp] theorem tBegin_bindClk (s : State) : (tBegin s).bindClk = s.bindClk := rfl
@[simp] theorem tBegin_bindOrder (s : State) : (tBegin s).bindOrder = s.bindOrder := rfl
@[simp] theorem tBegin_bindMode (s : State) : (tBegin s).bindMode = s.bindMode := rfl
@[simp] theorem tBegin_rtimeout (s : State) : (tBegin s).rtimeout = s.rtimeout := rfl
@[simp] theorem tBegin_cmd (s : State) : (tBegin s).cmd = s.cmd := rfl
@[simp] theorem tBegin_status (s : State) : (tBegin s).status = s.status := rfl
@[simp] theorem tBegin_rdata (s : State) : (tBegin s).rdata = s.rdata := rfl
@[simp] theorem tBegin_dbuf (s : State) : (tBegin s).dbuf = s.dbuf := rfl
@[simp] theorem tBegin_phase (s : State) : (tBegin s).phase = .begun := rfl
@[simp] theorem tBegin_idx (s : State) : (tBegin s).idx = s.idx := rfl
@[simp] theorem tBegin_frameNo (s : State) : (tBegin s).frameNo = s.frameNo := rfl
@[simp] theorem tBegin_half (s : State) : (tBegin s).half = s.half := rfl
@[simp] theorem tBegin_wacc (s : State) : (tBegin s).wacc = s.wacc := rfl
@[simp] theorem tBegin_trace (s : State) : (tBegin s).trace = s.trace ++ [.beginFrame s.busConfig] := rfl
@[simp] theorem tBegin_answers (s : State) : (tBegin s).answers = s.answers := rfl
@[simp] theorem tBegin_xchgs (s : State) : (tBegin s).xchgs = s.xchgs := rfl
@[simp] theorem tBegin_draws (s : State) : (tBegin s).draws = s.draws := rfl
@[simp] theorem tBegin_inputs (s : State) : (tBegin s).inputs = s.inputs := rfl
@[simp] theorem tBegin_hostData (s : State) : (tBegin s).hostData = s.hostData := rfl

@[simp] theorem tSelect_bindSel (s : State) : (tSelect s).bindSel = s.bindSel := rfl
@[simp] theorem tSelect_bindClk (s : State) : (tSelect s).bindClk = s.bindClk := rfl
@[simp] theorem tSelect_bindOrder (s : State) : (tSelect s).bindOrder = s.bindOrder := rfl
@[simp] theorem tSelect_bindMode (s : State) : (tSelect s).bindMode = s.bindMode := rfl
@[simp] theorem tSelect_rtimeout (s : State) : (tSelect s).rtimeout = s.rtimeout := rfl
@[simp] theorem tSelect_cmd (s : State) : (tSelect s).cmd = s.cmd := rfl
@[simp] theorem tSelect_status (s : State) : (tSelect s).status = s.status := rfl
@[simp] theorem tSelect_rdata (s : State) : (tSelect s).rdata = s.rdata := rfl
@[simp] theorem tSelect_dbuf (s : State) : (tSelect s).dbuf = s.dbuf := rfl
@[simp] theorem tSelect_phase (s : State) : (tSelect s).phase = .selected := rfl
@[simp] theorem tSelect_idx (s : State) : (tSelect s).idx = s.idx := rfl
@[simp] theorem tSelect_frameNo (s : State) : (tSelect s).frameNo = s.frameNo := rfl
@[simp] theorem tSelect_half (s : State) : (tSelect s).half = s.half := rfl
@[simp] theorem tSelect_wacc (s : State) : (tSelect s).wacc = s.wacc := rfl
@[simp] theorem tSelect_trace (s : State) : (tSelect s).trace = s.trace ++ [.sel s.bindSel] := rfl
@[simp] theorem tSelect_answers (s : State) : (tSelect s).answers = s.answers := rfl
@[simp] theorem tSelect_xchgs (s : State) : (tSelect s).xchgs = s.xchgs := rfl
@[simp] theorem tSelect_draws (s : State) : (tSelect s).draws = s.draws := rfl
@[simp] theorem tSelect_inputs (s : State) : (tSelect s).inputs = s.inputs := rfl
@[simp] theorem tSelect_hostData (s : State) : (tSelect s).hostData = s.hostData := rfl

@[simp] theorem tXchg_bindSel (o : Octet) (s : State) : (tXchg o s).2.bindSel = s.bindSel := rfl
@[simp] theorem tXchg_bindClk (o : Octet) (s : State) : (tXchg o s).2.bindClk = s.bindClk := rfl
@[simp] theorem tXchg_bindOrder (o : Octet) (s : State) : (tXchg o s).2.bindOrder = s.bindOrder := rfl
@[simp] theorem tXchg_bindMode (o : Octet) (s : State) : (tXchg o s).2.bindMode = s.bindMode := rfl
@[simp] theorem tXchg_rtimeout (o : Octet) (s : State) : (tXchg o s).2.rtimeout = s.rtimeout := rfl
@[simp] theorem tXchg_cmd (o : Octet) (s : State) : (tXchg o s).2.cmd = s.cmd := rfl
@[simp] theorem tXchg_status (o : Octet) (s : State) : (tXchg o s).2.status = s.status := rfl
@[simp] theorem tXchg_rdata (o : Octet) (s : State) : (tXchg o s).2.rdata = s.rdata := rfl
@[simp] theorem tXchg_dbuf (o : Octet) (s : State) : (tXchg o s).2.dbuf = s.dbuf := rfl
@[simp] theorem tXchg_phase (o : Octet) (s : State) : (tXchg o s).2.phase = .payload := rfl
@[simp] theorem tXchg_idx (o : Octet) (s : State) : (tXchg o s).2.idx = s.idx := rfl
@[simp] theorem tXchg_frameNo (o : Octet) (s : State) : (tXchg o s).2.frameNo = s.frameNo := rfl
@[simp] theorem tXchg_half (o : Octet) (s : State) : (tXchg o s).2.half = s.half := rfl
@[simp] theorem tXchg_wacc (o : Octet) (s : State) : (tXchg o s).2.wacc = s.wacc := rfl
@[simp] theorem tXchg_trace (o : Octet) (s : State) : (tXchg o s).2.trace = s.trace ++ [.xchg o (s.answerAt 0)] := rfl
@[simp] theorem tXchg_answers (o : Octet) (s : State) : (tXchg o s).2.answers = s.answers.drop 1 := rfl
@[simp] theorem tXchg_xchgs (o : Octet) (s : State) : (tXchg o s).2.xchgs = s.xchgs + 1 := rfl
@[simp] theorem tXchg_draws (o : Octet) (s : State) : (tXchg o s).2.draws = s.draws := rfl
@[simp] theorem tXchg_inputs (o : Octet) (s : State) : (tXchg o s).2.inputs = s.inputs := rfl
@[simp] theorem tXchg_hostData (o : Octet) (s : State) : (tXchg o s).2.hostData = s.hostData := rfl

@[simp] theorem tDeselect_bindSel (s : State) : (tDeselect s).bindSel = s.bindSel := rfl
@[simp] theorem tDeselect_bindClk (s : State) : (tDeselect s).bindClk = s.bindClk := rfl
@[simp] theorem tDeselect_bindOrder (s : State) : (tDeselect s).bindOrder = s.bindOrder := rfl
@[simp] theorem tDeselect_bindMode (s : State) : (tDeselect s).bindMode = s.bindMode := rfl
@[simp] theorem tDeselect_rtimeout (s : State) : (tDeselect s).rtimeout = s.rtimeout := rfl
@[simp] theorem tDeselect_cmd (s : State) : (tDeselect s).cmd = s.cmd := rfl
@[simp] theorem tDeselect_status (s : State) : (tDeselect s).status = s.status := rfl
@[simp] theorem tDeselect_rdata (s : State) : (tDeselect s).rdata = s.rdata := rfl
@[simp] theorem tDeselect_dbuf (s : State) : (tDeselect s).dbuf = s.dbuf := rfl
@[simp] theorem tDeselect_phase (s : State) : (tDeselect s).phase = .deselected := rfl
@[simp] theorem tDeselect_idx (s : State) : (tDeselect s).idx = s.idx := rfl
@[simp] theorem tDeselect_frameNo (s : State) : (tDeselect s).frameNo = s.frameNo := rfl
@[simp] theorem tDeselect_half (s : State) : (tDeselect s).half = s.half := rfl
@[simp] theorem tDeselect_wacc (s : State) : (tDeselect s).wacc = s.wacc := rfl
@[simp] theorem tDeselect_trace (s : State) : (tDeselect s).trace = s.trace ++ [.desel s.bindSel] := rfl
@[simp] theorem tDeselect_answers (s : State) : (tDeselect s).answers = s.answers := rfl
@[simp] theorem tDeselect_xchgs (s : State) : (tDeselect s).xchgs = s.xchgs := rfl
@[simp] theorem tDeselect_draws (s : State) : (tDeselect s).draws = s.draws := rfl
@[simp] theorem tDeselect_inputs (s : State) : (tDeselect s).inputs = s.inputs := rfl
@[simp] theorem tDeselect_hostData (s : State) : (tDeselect s).hostData = s.hostData := rfl

@[simp] theorem tEnd_bindSel (s : State) : (tEnd s).bindSel = s.bindSel := rfl
@[simp] theorem tEnd_bindClk (s : State) : (tEnd s).bindClk = s.bindClk := rfl
@[simp] theorem tEnd_bindOrder (s : State) : (tEnd s).bindOrder = s.bindOrder := rfl
@[simp] theorem tEnd_bindMode (s : State) : (tEnd s).bindMode = s.bindMode := rfl
@[simp] theorem tEnd_rtimeout (s : State) : (tEnd s).rtimeout = s.rtimeout := rfl
@[simp] theorem tEnd_cmd (s : State) : (tEnd s).cmd = s.cmd := rfl
@[simp] theorem tEnd_status (s : State) : (tEnd s).status = s.status := rfl
@[simp] theorem tEnd_rdata (s : State) : (tEnd s).rdata = s.rdata := rfl
@[simp] theorem tEnd_dbuf (s : State) : (tEnd s).dbuf = s.dbuf := rfl
@[simp] theorem tEnd_phase (s : State) : (tEnd s).phase = s.phase := rfl
@[simp] theorem tEnd_idx (s : State) : (tEnd s).idx = s.idx := rfl
@[simp] theorem tEnd_frameNo (s : State) : (tEnd s).frameNo = s.frameNo := rfl
@[simp] theorem tEnd_half (s : State) : (tEnd s).half = s.half := rfl
@[simp] theorem tEnd_wacc (s : State) : (tEnd s).wacc = s.wacc := rfl
@[simp] theorem tEnd_trace (s : State) : (tEnd s).trace = s.trace ++ [.endFrame] := rfl
@[simp] theorem tEnd_answers (s : State) : (tEnd s).answers = s.answers := rfl
@[simp] theorem tEnd_xchgs (s : State) : (tEnd s).xchgs = s.xchgs := rfl
@[simp] theorem tEnd_draws (s : State) : (tEnd s).draws = s.draws := rfl
@[simp] theorem tEnd_inputs (s : State) : (tEnd s).inputs = s.inputs := rfl
@[simp] theorem tEnd_hostData (s : State) : (tEnd s).hostData = s.hostData := rfl

@[simp] theorem startPayload_bindSel (s : State) : (startPayload s).bindSel = s.bindSel := rfl
@[simp] theorem startPayload_bindClk (s : State) : (startPayload s).bindClk = s.bindClk := rfl
@[simp] theorem startPayload_bindOrder (s : State) : (startPayload s).bindOrder = s.bindOrder := rfl
@[simp] theorem startPayload_bindMode (s : State) : (startPayload s).bindMode = s.bindMode := rfl
@[simp] theorem startPayload_rtimeout (s : State) : (startPayload s).rtimeout = s.rtimeout := rfl
@[simp] theorem startPayload_cmd (s : State) : (startPayload s).cmd = s.cmd := rfl
@[simp] theorem startPayload_status (s : State) : (startPayload s).status = s.status := rfl
@[simp] theorem startPayload_rdata (s : State) : (startPayload s).rdata = s.rdata := rfl
@[simp] theorem startPayload_dbuf (s : State) : (startPayload s).dbuf = s.dbuf := rfl
@[simp] theorem startPayload_phase (s : State) : (startPayload s).phase = s.phase := rfl
@[simp] theorem startPayload_idx (s : State) : (startPayload s).idx = 0 := rfl
@[simp] theorem startPayload_frameNo (s : State) : (startPayload s).frameNo = s.frameNo := rfl
@[simp] theorem startPayload_half (s : State) : (startPayload s).half = false := rfl
@[simp] theorem startPayload_wacc (s : State) : (startPayload s).wacc = s.wacc := rfl
@[simp] theorem startPayload_trace (s : State) : (startPayload s).trace = s.trace := rfl
@[simp] theorem startPayload_answers (s : State) : (startPayload s).answers = s.answers := rfl
@[simp] theorem startPayload_xchgs (s : State) : (startPayload s).xchgs = s.xchgs := rfl
@[simp] theorem startPayload_draws (s : State) : (startPayload s).draws = s.draws := rfl
@[simp] theorem startPayload_inputs (s : State) : (startPayload s).inputs = s.inputs := rfl
@[simp] theorem startPayload_hostData (s : State) : (startPayload s).hostData = s.hostData := rfl

@[simp] theorem setDbuf_bindSel (i : Nat) (v : Word) (s : State) : (s.setDbuf i v).bindSel = s.bindSel := rfl
@[simp] theorem setDbuf_bindClk (i : Nat) (v : Word) (s : State) : (s.setDbuf i v).bindClk = s.bindClk := rfl
@[simp] theorem setDbuf_bindOrder (i : Nat) (v : Word) (s : State) : (s.setDbuf i v).bindOrder = s.bindOrder := rfl
@[simp] theorem setDbuf_bindMode (i : Nat) (v : Word) (s : State) : (s.setDbuf i v).bindMode = s.bindMode := rfl
@[simp] theorem setDbuf_rtimeout (i : Nat) (v : Word) (s : State) : (s.setDbuf i v).rtimeout = s.rtimeout := rfl
@[simp] theorem setDbuf_cmd (i : Nat) (v : Word) (s : State) : (s.setDbuf i v).cmd = s.cmd := rfl
@[simp] theorem setDbuf_status (i : Nat) (v : Word) (s : State) : (s.setDbuf i v).status = s.status := rfl
@[simp] theorem setDbuf_rdata (i : Nat) (v : Word) (s : State) : (s.setDbuf i v).rdata = s.rdata := rfl
@[simp] theorem setDbuf_dbuf (i : Nat) (v : Word) (s : State) : (s.setDbuf i v).dbuf = s.dbuf.setIfInBounds i v := rfl
@[simp] theorem setDbuf_phase (i : Nat) (v : Word) (s : State) : (s.setDbuf i v).phase = s.phase := rfl
@[simp] theorem setDbuf_idx (i : Nat) (v : Word) (s : State) : (s.setDbuf i v).idx = s.idx := rfl
@[simp] theorem setDbuf_frameNo (i : Nat) (v : Word) (s : State) : (s.setDbuf i v).frameNo = s.frameNo := rfl
@[simp] theorem setDbuf_half (i : Nat) (v : Word) (s : State) : (s.setDbuf i v).half = s.half := rfl
@[simp] theorem setDbuf_wacc (i : Nat) (v : Word) (s : State) : (s.setDbuf i v).wacc = s.wacc := rfl
@[simp] theorem setDbuf_trace (i : Nat) (v : Word) (s : State) : (s.setDbuf i v).trace = s.trace := rfl
@[simp] theorem setDbuf_answers (i : Nat) (v : Word) (s : State) : (s.setDbuf i v).answers = s.answers := rfl
@[simp] theorem setDbuf_xchgs (i : Nat) (v : Word) (s : State) : (s.setDbuf i v).xchgs = s.xchgs := rfl
@[simp] theorem setDbuf_draws (i : Nat) (v : Word) (s : State) : (s.setDbuf i v).draws = s.draws := rfl
@[simp] theorem setDbuf_inputs (i : Nat) (v : Word) (s : State) : (s.setDbuf i v).inputs = s.inputs := rfl
@[simp] theorem setDbuf_hostData (i : Nat) (v : Word) (s : State) : (s.setDbuf i v).hostData = s.hostData := rfl

@[simp] theorem complete_bindSel (r : Word) (s : State) : (complete r s).bindSel = s.bindSel := rfl
@[simp] theorem complete_bindClk (r : Word) (s : State) : (complete r s).bindClk = s.bindClk := rfl
@[simp] theorem complete_bindOrder (r : Word) (s : State) : (complete r s).bindOrder = s.bindOrder := rfl
@[simp] theorem complete_bindMode (r : Word) (s : State) : (complete r s).bindMode = s.bindMode := rfl
@[simp] theorem complete_rtimeout (r : Word) (s : State) : (complete r s).rtimeout = s.rtimeout := rfl
@[simp] theorem complete_cmd (r : Word) (s : State) : (complete r s).cmd = none := rfl
@[simp] theorem complete_status (r : Word) (s : State) : (complete r s).status = statusWord r false := rfl
@[simp] theorem complete_rdata (r : Word) (s : State) : (complete r s).rdata = s.rdata := rfl
@[simp] theorem complete_dbuf (r : Word) (s : State) : (complete r s).dbuf = s.dbuf := rfl
@[simp] theorem complete_phase (r : Word) (s : State) : (complete r s).phase = .idle := rfl
@[simp] theorem complete_idx (r : Word) (s : State) : (complete r s).idx = s.idx := rfl
@[simp] theorem complete_frameNo (r : Word) (s : State) : (complete r s).frameNo = .first := rfl
@[simp] theorem complete_half (r : Word) (s : State) : (complete r s).half = s.half := rfl
@[simp] theorem complete_wacc (r : Word) (s : State) : (complete r s).wacc = s.wacc := rfl
@[simp] theorem complete_trace (r : Word) (s : State) : (complete r s).trace = s.trace := rfl
@[simp] theorem complete_answers (r : Word) (s : State) : (complete r s).answers = s.answers := rfl
@[simp] theorem complete_xchgs (r : Word) (s : State) : (complete r s).xchgs = s.xchgs := rfl
@[simp] theorem complete_draws (r : Word) (s : State) : (complete r s).draws = s.draws := rfl
@[simp] theorem complete_inputs (r : Word) (s : State) : (complete r s).inputs = s.inputs := rfl
@[simp] theorem complete_hostData (r : Word) (s : State) : (complete r s).hostData = s.hostData := rfl

@[simp] theorem issue_bindSel (c : BitVec 64) (s : State) : (s.issue c).bindSel = s.bindSel := rfl
@[simp] theorem issue_bindClk (c : BitVec 64) (s : State) : (s.issue c).bindClk = s.bindClk := rfl
@[simp] theorem issue_bindOrder (c : BitVec 64) (s : State) : (s.issue c).bindOrder = s.bindOrder := rfl
@[simp] theorem issue_bindMode (c : BitVec 64) (s : State) : (s.issue c).bindMode = s.bindMode := rfl
@[simp] theorem issue_rtimeout (c : BitVec 64) (s : State) : (s.issue c).rtimeout = s.rtimeout := rfl
@[simp] theorem issue_cmd (c : BitVec 64) (s : State) : (s.issue c).cmd = some c := rfl
@[simp] theorem issue_status (c : BitVec 64) (s : State) : (s.issue c).status = s.status := rfl
@[simp] theorem issue_rdata (c : BitVec 64) (s : State) : (s.issue c).rdata = s.rdata := rfl
@[simp] theorem issue_dbuf (c : BitVec 64) (s : State) : (s.issue c).dbuf = s.dbuf := rfl
@[simp] theorem issue_phase (c : BitVec 64) (s : State) : (s.issue c).phase = s.phase := rfl
@[simp] theorem issue_idx (c : BitVec 64) (s : State) : (s.issue c).idx = s.idx := rfl
@[simp] theorem issue_frameNo (c : BitVec 64) (s : State) : (s.issue c).frameNo = s.frameNo := rfl
@[simp] theorem issue_half (c : BitVec 64) (s : State) : (s.issue c).half = s.half := rfl
@[simp] theorem issue_wacc (c : BitVec 64) (s : State) : (s.issue c).wacc = s.wacc := rfl
@[simp] theorem issue_trace (c : BitVec 64) (s : State) : (s.issue c).trace = s.trace := rfl
@[simp] theorem issue_answers (c : BitVec 64) (s : State) : (s.issue c).answers = s.answers := rfl
@[simp] theorem issue_xchgs (c : BitVec 64) (s : State) : (s.issue c).xchgs = s.xchgs := rfl
@[simp] theorem issue_draws (c : BitVec 64) (s : State) : (s.issue c).draws = s.draws := rfl
@[simp] theorem issue_inputs (c : BitVec 64) (s : State) : (s.issue c).inputs = s.inputs := rfl
@[simp] theorem issue_hostData (c : BitVec 64) (s : State) : (s.issue c).hostData = s.hostData := rfl

@[simp] theorem illegalCommand_bindSel (s : State) : (illegalCommand s).bindSel = s.bindSel := rfl
@[simp] theorem illegalCommand_bindClk (s : State) : (illegalCommand s).bindClk = s.bindClk := rfl
@[simp] theorem illegalCommand_bindOrder (s : State) : (illegalCommand s).bindOrder = s.bindOrder := rfl
@[simp] theorem illegalCommand_bindMode (s : State) : (illegalCommand s).bindMode = s.bindMode := rfl
@[simp] theorem illegalCommand_rtimeout (s : State) : (illegalCommand s).rtimeout = s.rtimeout := rfl
@[simp] theorem illegalCommand_cmd (s : State) : (illegalCommand s).cmd = none := rfl
@[simp] theorem illegalCommand_status (s : State) : (illegalCommand s).status = statusWord 0 true := rfl
@[simp] theorem illegalCommand_rdata (s : State) : (illegalCommand s).rdata = s.rdata := rfl
@[simp] theorem illegalCommand_dbuf (s : State) : (illegalCommand s).dbuf = s.dbuf := rfl
@[simp] theorem illegalCommand_phase (s : State) : (illegalCommand s).phase = s.phase := rfl
@[simp] theorem illegalCommand_idx (s : State) : (illegalCommand s).idx = s.idx := rfl
@[simp] theorem illegalCommand_frameNo (s : State) : (illegalCommand s).frameNo = s.frameNo := rfl
@[simp] theorem illegalCommand_half (s : State) : (illegalCommand s).half = s.half := rfl
@[simp] theorem illegalCommand_wacc (s : State) : (illegalCommand s).wacc = s.wacc := rfl
@[simp] theorem illegalCommand_trace (s : State) : (illegalCommand s).trace = s.trace := rfl
@[simp] theorem illegalCommand_answers (s : State) : (illegalCommand s).answers = s.answers := rfl
@[simp] theorem illegalCommand_xchgs (s : State) : (illegalCommand s).xchgs = s.xchgs := rfl
@[simp] theorem illegalCommand_draws (s : State) : (illegalCommand s).draws = s.draws := rfl
@[simp] theorem illegalCommand_inputs (s : State) : (illegalCommand s).inputs = s.inputs := rfl
@[simp] theorem illegalCommand_hostData (s : State) : (illegalCommand s).hostData = s.hostData := rfl

@[simp] theorem tXchg_fst (o : Octet) (s : State) : (tXchg o s).1 = s.answerAt 0 := rfl

end Sys2Proof.Machine
end

