-- ==== Sys2Proof/Laws/Frame.lean ====
section
/-! SUPPORT. What a frame does, said once: the octets it captures, the calls it adds to the trace, and every field
it changes (40_transport_framing.md R112 to R120). -/

namespace Sys2Proof.Machine

/-! ## Answers -/

/-- `n` exchanges further on, exchange `k` is exchange `n + k`. -/
theorem answerAt_later {s t : State} {n : Nat} (ha : t.answers = s.answers.drop n) (hx : t.xchgs = s.xchgs + n)
    (k : Nat) : t.answerAt k = s.answerAt (n + k) := by
  simp [State.answerAt, ha, hx, List.getElem?_drop, Nat.add_assoc]

theorem exchanges_later {s t : State} {n : Nat} (ha : t.answers = s.answers.drop n) (hx : t.xchgs = s.xchgs + n)
    (outs : List Octet) : ∀ j, t.exchanges j outs = s.exchanges (n + j) outs := by
  induction outs with
  | nil => intro j; rfl
  | cons o os ih => intro j; simp [State.exchanges, answerAt_later ha hx, ih, Nat.add_assoc]

theorem answersFrom_later {s t : State} {n : Nat} (ha : t.answers = s.answers.drop n)
    (hx : t.xchgs = s.xchgs + n) (j m : Nat) : t.answersFrom j m = s.answersFrom (n + j) m := by
  simp [State.answersFrom, answerAt_later ha hx, Nat.add_assoc]

@[simp] theorem answersFrom_zero (s : State) (j : Nat) : s.answersFrom j 0 = [] := rfl

theorem answersFrom_succ (s : State) (j n : Nat) :
    s.answersFrom j (n + 1) = s.answerAt j :: s.answersFrom (j + 1) n := by
  simp [State.answersFrom, List.range_succ_eq_map, Function.comp_def, Nat.add_assoc, Nat.add_comm 1]

@[simp] theorem answersFrom_length (s : State) (j n : Nat) : (s.answersFrom j n).length = n := by
  simp [State.answersFrom]

@[simp] theorem exchanges_length (s : State) (outs : List Octet) : ∀ j, (s.exchanges j outs).length = outs.length := by
  induction outs with
  | nil => intro j; rfl
  | cons o os ih => intro j; simp [State.exchanges, ih]

/-! ## The state after a frame -/

/-- `s` after `n` further exchanges with these calls, in this phase and with this IDX. -/
def State.exchanged (s : State) (n : Nat) (calls : List Call) (phase : Phase) (idx : Nat) : State :=
  { s with trace := s.trace ++ calls, answers := s.answers.drop n, xchgs := s.xchgs + n, phase := phase, idx := idx }

/-- The payload of a frame that stores nothing. -/
theorem payload_countElements (width : Width) (outs : List Octet) :
    ∀ (k : Nat) (s : State), s.phase = .payload → s.idx = k / width.octets →
      payload (countElements width) k outs s =
        (s.answersFrom 0 outs.length,
         s.exchanged outs.length (s.exchanges 0 outs) .payload ((k + outs.length) / width.octets)) := by
  induction outs with
  | nil => intro k s hp hi; simp [payload, State.exchanged, State.exchanges, ← hp, ← hi]
  | cons o os ih =>
    intro k s hp hi
    rw [payload, ih (k + 1) _ rfl rfl]
    have ha : (countElements width k (tXchg o s).1 (tXchg o s).2).answers = s.answers.drop 1 := rfl
    have hx : (countElements width k (tXchg o s).1 (tXchg o s).2).xchgs = s.xchgs + 1 := rfl
    rw [exchanges_later ha hx, answersFrom_later ha hx, List.length_cons, answersFrom_succ]
    simp [State.exchanged, State.exchanges, countElements, tXchg, Nat.add_assoc, Nat.add_comm 1]

/-- A frame that stores nothing: what it captures, and every field it changes (R112, R114, R115). -/
theorem frame_countElements (width : Width) (a : Octet) (outs : List Octet) (s : State) :
    frame a outs (countElements width) s =
      (s.answersFrom 1 outs.length,
       { s.exchanged (outs.length + 1) (s.frameCalls 0 a outs) .deselected (outs.length / width.octets) with
         half := false }) := by
  rw [frame, payload_countElements width outs 0 _ rfl (by simp [startPayload])]
  have ha : (startPayload (tXchg a (tSelect (tBegin s))).2).answers = s.answers.drop 1 := rfl
  have hx : (startPayload (tXchg a (tSelect (tBegin s))).2).xchgs = s.xchgs + 1 := rfl
  rw [exchanges_later ha hx, answersFrom_later ha hx]
  simp [State.exchanged, State.frameCalls, State.exchanges, startPayload, tXchg, tSelect, tBegin, tDeselect, tEnd,
    State.answerAt, Nat.add_assoc, Nat.add_comm 1, State.busConfig]

/-- MemRead: `n` octets captured in one read frame (R114). -/
theorem memRead_eq (width : Width) (a : Octet) (n : Nat) (s : State) :
    memRead width a n s =
      (s.answersFrom 1 n,
       { s.exchanged (n + 1) (s.readFrame 0 a n) .deselected (n / width.octets) with half := false }) := by
  rw [memRead, frame_countElements]
  simp [readAddr, readFlag, State.readFrame]

/-- MemWrite: the octets sent in one write frame (R115). -/
theorem memWrite_eq (width : Width) (a : Octet) (v : List Octet) (s : State) :
    memWrite width a v s =
      { s.exchanged (v.length + 1) (s.writeFrame 0 a v) .deselected (v.length / width.octets) with
        half := false } := by
  rw [memWrite, frame_countElements]
  rfl

end Sys2Proof.Machine
end

