-- ==== Sys2Proof/Laws/Register.lean ====
section
/-! SUPPORT. The word assembler, ReadReg and WriteReg, and the array stores, each said once
(41_array_access.md R131, R132; 42_bit_access.md R150; 20_memory.md R53, R55). -/

namespace Sys2Proof.Machine

/-! ## Halves of a word -/

@[simp] theorem hiOctet_append (h l : Octet) : hiOctet (h ++ l) = h := by
  apply BitVec.eq_of_getLsbD_eq
  intro i hi
  rw [hiOctet, BitVec.getLsbD_extractLsb', BitVec.getLsbD_append (x := h) (y := l)]
  simp [hi]

@[simp] theorem loOctet_append (h l : Octet) : loOctet (h ++ l) = l := by
  apply BitVec.eq_of_getLsbD_eq
  intro i hi
  rw [loOctet, BitVec.getLsbD_extractLsb', BitVec.getLsbD_append (x := h) (y := l)]
  simp [hi]

@[simp] theorem hi_append_lo (x : Word) : hiOctet x ++ loOctet x = x := by
  apply BitVec.eq_of_getLsbD_eq
  intro i hi
  simp only [hiOctet, loOctet, BitVec.getLsbD_append, BitVec.getLsbD_extractLsb']
  by_cases h : i < 8
  · simp [h]
  · simp [h, show i - 8 < 8 by omega, show 8 + (i - 8) = i by omega]

/-- The two octets of a word, put in one after the other, are the word joined by the order (R132). -/
@[simp] theorem putSecond_putFirst (order : ByteOrder) (wacc : Word) (o1 o2 : Octet) :
    putSecond order (putFirst order wacc o1) o2 = joinOctets order o1 o2 := by
  cases order <;> simp [putFirst, putSecond, joinOctets]

@[simp] theorem wordOctets_length (setting : WrWordOrder) (order : ByteOrder) (x : Word) :
    (wordOctets setting order x).length = 2 := by
  unfold wordOctets; split <;> rfl

/-- With the setting the spec takes, a word is sent high octet first whatever BIND_ORDER is (R55). -/
@[simp] theorem wordOctets_config (order : ByteOrder) (x : Word) :
    wordOctets Config.wrWordOrder order x = [hiOctet x, loOctet x] := by
  simp [wordOctets, Config.wrWordOrder]

/-! ## ReadReg and WriteReg -/

/-- ReadReg(8, a): one read frame, one element (R150). -/
theorem readReg8_eq (a : Octet) (s : State) :
    readReg8 a s =
      ⟨1, s.answerAt 1, { s.exchanged 2 (s.readFrame 0 a 1) .deselected 1 with half := false }⟩ := by
  simp [readReg8, memRead_eq, answersFrom_succ, Width.octets]

/-- ReadReg(16, a): one read frame, one word by BIND_ORDER (R150). -/
theorem readReg16_eq (a : Octet) (s : State) :
    readReg16 a s =
      ⟨1, s.wordAt 1,
       { s.exchanged 3 (s.readFrame 0 a 2) .deselected 1 with half := false, wacc := s.wordAt 1 }⟩ := by
  simp [readReg16, memRead_eq, answersFrom_succ, Width.octets, assemble, State.wordAt, State.exchanged]

/-- WriteReg(8, a, x): one write frame, success (R150). -/
theorem writeReg8_eq (a x : Octet) (s : State) :
    writeReg8 a x s =
      ⟨true, { s.exchanged 2 (s.writeFrame 0 a [x]) .deselected 1 with half := false }⟩ := by
  simp [writeReg8, memWrite_eq, Width.octets]

/-- WriteReg(16, a, x) with the setting the spec takes: high octet first (R150, R55). -/
theorem writeReg16_eq (a : Octet) (x : Word) (s : State) :
    writeReg16 Config.wrWordOrder a x s =
      ⟨true, { s.exchanged 3 (s.writeFrame 0 a [hiOctet x, loOctet x]) .deselected 1 with half := false }⟩ := by
  simp [writeReg16, memWrite_eq, Width.octets]

/-! ## Array stores -/

/-- `storeFrom` changes DBUF only. -/
theorem storeFrom_eq (vs : List Word) : ∀ (i : Nat) (s : State),
    storeFrom i vs s = { s with dbuf := (storeFrom i vs s).dbuf } := by
  induction vs with
  | nil => intro i s; rfl
  | cons v vs ih => intro i s; rw [storeFrom, ih]; rfl

/-- Two states with the same DBUF have it after the same stores. -/
theorem storeFrom_dbuf_congr (vs : List Word) : ∀ (i : Nat) (s t : State), s.dbuf = t.dbuf →
    (storeFrom i vs s).dbuf = (storeFrom i vs t).dbuf := by
  induction vs with
  | nil => intro i s t h; exact h
  | cons v vs ih => intro i s t h; exact ih _ _ _ (by simp [h])

theorem dbufAt_setDbuf (i : Nat) (v : Word) (s : State) (j : Fin 256) :
    (s.setDbuf i v).dbufAt j = if i = j.val then v else s.dbufAt j := by
  simp [State.dbufAt, Vector.getElem_setIfInBounds]

/-- The elements stand in entries `i`, `i + 1`, …, and every other entry is unchanged (R53). -/
theorem storeFrom_dbufAt (vs : List Word) : ∀ (i : Nat) (s : State) (j : Fin 256),
    (storeFrom i vs s).dbufAt j = if i ≤ j.val then (vs[j.val - i]?).getD (s.dbufAt j) else s.dbufAt j := by
  induction vs with
  | nil => intro i s j; simp [storeFrom]
  | cons v vs ih =>
    intro i s j
    rw [storeFrom, ih, dbufAt_setDbuf]
    by_cases h1 : i + 1 ≤ j.val
    · rw [if_pos h1, if_neg (show ¬i = j.val by omega), if_pos (show i ≤ j.val by omega),
        show j.val - i = (j.val - (i + 1)) + 1 by omega]
      rfl
    · rw [if_neg h1]
      by_cases h2 : i = j.val
      · simp [h2]
      · rw [if_neg h2, if_neg (by omega)]

/-- The words captured from exchange `j` on. -/
def State.wordsFrom (s : State) (j n : Nat) : List Word := (List.range n).map fun k => s.wordAt (j + 2 * k)

@[simp] theorem wordsFrom_length (s : State) (j n : Nat) : (s.wordsFrom j n).length = n := by
  simp [State.wordsFrom]

theorem wordsFrom_succ (s : State) (j n : Nat) : s.wordsFrom j (n + 1) = s.wordAt j :: s.wordsFrom (j + 2) n := by
  simp [State.wordsFrom, List.range_succ_eq_map, Function.comp_def, Nat.mul_add, Nat.add_assoc, Nat.add_comm 2]

theorem wordsFrom_later {s t : State} {n : Nat} (ha : t.answers = s.answers.drop n) (hx : t.xchgs = s.xchgs + n)
    (ho : t.bindOrder = s.bindOrder) (j m : Nat) : t.wordsFrom j m = s.wordsFrom (n + j) m := by
  simp [State.wordsFrom, State.wordAt, answerAt_later ha hx, ho, Nat.add_assoc]

/-- The last word captured from exchange 1 on. -/
theorem wordsFrom_last (s : State) (n : Nat) (h : 0 < n) (d : Word) :
    ((s.wordsFrom 1 n).getLast?).getD d = s.wordAt (2 * n - 1) := by
  obtain ⟨m, rfl⟩ : ∃ m, n = m + 1 := ⟨n - 1, by omega⟩
  simp only [State.wordsFrom, List.range_succ, List.map_append, List.map_singleton, List.getLast?_concat,
    Option.getD_some]
  congr 1
  omega

/-- One word of RDWA's payload: two exchanges, then the word stands in `DBUF[IDX]` and IDX has advanced (R131). -/
theorem payload_storeWords_two (k : Nat) (d1 d2 : Octet) (outs : List Octet) (s : State) (hh : s.half = false)
    (hp : s.phase = .payload) :
    payload storeWords k (d1 :: d2 :: outs) s =
      let t : State := { (s.exchanged 2 (s.exchanges 0 [d1, d2]) .payload (s.idx + 1)).setDbuf s.idx (s.wordAt 0) with
        wacc := s.wordAt 0 }
      let rest := payload storeWords (k + 2) outs t
      (s.answerAt 0 :: s.answerAt 1 :: rest.1, rest.2) := by
  obtain ⟨bs, bc, bo, bm, rt, cm, st, rd, db, ph, ix, fr, ha, wa, tr, an, xc, dr, inp, hd⟩ := s
  subst hh hp
  cases an <;>
  simp [payload, tXchg, storeWords, assemble, State.exchanged, State.exchanges, State.wordAt, State.setDbuf,
    State.answerAt]

/-- RDWA's payload of `n` words (R131). -/
theorem payload_storeWords (n : Nat) : ∀ (k : Nat) (d : Octet) (s : State), s.half = false → s.phase = .payload →
    payload storeWords k (List.replicate (2 * n) d) s =
      (s.answersFrom 0 (2 * n),
       { storeFrom s.idx (s.wordsFrom 0 n)
           (s.exchanged (2 * n) (s.exchanges 0 (List.replicate (2 * n) d)) .payload (s.idx + n)) with
         wacc := ((s.wordsFrom 0 n).getLast?).getD s.wacc }) := by
  induction n with
  | zero => intro k d s hh hp; simp [payload, State.wordsFrom, storeFrom, State.exchanged, State.exchanges, ← hp]
  | succ n ih =>
    intro k d s hh hp
    have hrep : List.replicate (2 * (n + 1)) d = d :: d :: List.replicate (2 * n) d := by
      simp [Nat.mul_add, List.replicate_succ]
    rw [hrep, payload_storeWords_two k d d _ s hh hp]
    dsimp only
    rw [ih (k + 2) d]
    · generalize hte : ({ (s.exchanged 2 (s.exchanges 0 [d, d]) .payload (s.idx + 1)).setDbuf s.idx (s.wordAt 0) with
        wacc := s.wordAt 0 } : State) = t
      have ha : t.answers = s.answers.drop 2 := by rw [← hte]; rfl
      have hx : t.xchgs = s.xchgs + 2 := by rw [← hte]; rfl
      have ho : t.bindOrder = s.bindOrder := by rw [← hte]; rfl
      rw [answersFrom_later ha hx, exchanges_later ha hx, wordsFrom_later ha hx ho, Nat.mul_add, answersFrom_succ,
        answersFrom_succ, wordsFrom_succ, storeFrom]
      subst hte
      refine Prod.ext (by simp) ?_
      conv_lhs => rw [storeFrom_eq]
      conv_rhs => rw [storeFrom_eq]
      have hd : ∀ u v : State, u.dbuf = v.dbuf →
          (storeFrom (s.idx + 1) (s.wordsFrom 2 n) u).dbuf = (storeFrom (s.idx + 1) (s.wordsFrom 2 n) v).dbuf :=
        fun u v h => storeFrom_dbuf_congr _ _ u v h
      simp only [State.exchanged, State.setDbuf, State.exchanges, List.getLast?_cons, Nat.add_zero, Nat.zero_add]
      congr 1
      · exact hd _ _ rfl
      · omega
      · simp
      · simp [Nat.add_comm]
      · omega
    · exact hh
    · rfl

/-- RDWA's frame: `n` words captured in one read frame and stored in DBUF from entry 0 on (R131). -/
theorem frame_storeWords (a d : Octet) (n : Nat) (s : State) :
    (frame a (List.replicate (2 * n) d) storeWords s).2 =
      { storeFrom 0 (s.wordsFrom 1 n)
          (s.exchanged (2 * n + 1) (s.frameCalls 0 a (List.replicate (2 * n) d)) .deselected n) with
        half := false, wacc := ((s.wordsFrom 1 n).getLast?).getD s.wacc } := by
  rw [frame, payload_storeWords n 0 d _ rfl rfl]
  have ha : (startPayload (tXchg a (tSelect (tBegin s))).2).answers = s.answers.drop 1 := rfl
  have hx : (startPayload (tXchg a (tSelect (tBegin s))).2).xchgs = s.xchgs + 1 := rfl
  rw [exchanges_later ha hx, wordsFrom_later ha hx rfl]
  dsimp only
  conv_lhs => rw [storeFrom_eq]
  conv_rhs => rw [storeFrom_eq]
  have hd := storeFrom_dbuf_congr (s.wordsFrom 1 n) 0
  simp only [State.exchanged, tDeselect, tEnd, startPayload_idx, Nat.zero_add, Nat.add_zero]
  congr 1
  · exact hd _ _ rfl
  · simp [State.frameCalls, State.exchanges, State.busConfig, State.answerAt, tXchg, tBegin, tSelect, startPayload]
  · simp [startPayload, tXchg, tBegin, tSelect, Nat.add_comm]
  · simp [startPayload, tXchg, tBegin, tSelect]; omega

end Sys2Proof.Machine
end

