-- ==== Sys2Proof/Laws/Exec.lean ====
section
/-! SUPPORT. What each instruction does, said once: the whole state it ends in (41_array_access.md, 42_bit_access.md,
43_shim.md). -/

namespace Sys2Proof.Machine

/-- `s` after a legal command that made `n` exchanges with these calls, and left these values. -/
def State.finished (s : State) (n : Nat) (calls : List Call) (idx : Nat) (res rdata : Word) (dbuf : Vector Word 256)
    (wacc : Word) (drawn : Nat) : State :=
  { s with
    trace := s.trace ++ calls, answers := s.answers.drop n, xchgs := s.xchgs + n
    phase := .idle, idx := idx, frameNo := .first, half := false, wacc := wacc
    status := statusWord res false, rdata := rdata, dbuf := dbuf, cmd := none, draws := s.draws + drawn }

/-- What a finished command leaves, in the terms of the claims. -/
theorem completed_finished (s : State) (n : Nat) (calls : List Call) (idx : Nat) (res rdata : Word)
    (dbuf : Vector Word 256) (wacc : Word) (drawn : Nat) (entry : Fin 256 → Word) (h : ∀ i : Fin 256, dbuf[i] = entry i) :
    Completed s (s.finished n calls idx res rdata dbuf wacc drawn) res rdata entry calls :=
  ⟨rfl, rfl, h, rfl, rfl, rfl, rfl, rfl, rfl, rfl, rfl, rfl, rfl⟩

/-- A computed value where its rule defines it, and otherwise the free value of draw `k`. -/
def valueOr {w : Nat} (defined : Bool) (v : BitVec w) (k : Nat) : BitVec w := if defined then v else Config.freeValue w k

/-- How many free values a computed value draws. -/
def drawsOf (defined : Bool) : Nat := if defined then 0 else 1

@[simp] theorem valueOr_true {w : Nat} (v : BitVec w) (k : Nat) : valueOr true v k = v := rfl

@[simp] theorem drawsOf_true : drawsOf true = 0 := rfl

theorem computed_eq {w : Nat} (defined : Bool) (v : BitVec w) (s : State) :
    computed defined v s = (valueOr defined v s.draws, { s with draws := s.draws + drawsOf defined }) := by
  cases defined <;> rfl

/-- The elements of an array write, entry by entry. -/
theorem elements_eq (s : State) (n : Nat) : s.elements n = ((List.finRange 256).take n).map s.dbufAt := by
  rw [State.elements, List.map_take]
  congr 1
  apply List.ext_getElem
  · simp
  · intro i h1 h2; simp [State.dbufAt]

theorem elements_length (s : State) (n : Nat) (h : n ≤ 256) : (s.elements n).length = n := by
  simp [State.elements, h]

/-- One more element is one more entry. -/
theorem elements_succ (s : State) (n : Nat) (h : n < 256) :
    s.elements (n + 1) = s.elements n ++ [s.dbufAt ⟨n, h⟩] := by
  simp [State.elements, List.take_add_one, State.dbufAt, h]

@[simp] theorem elements_zero (s : State) : s.elements 0 = [] := rfl

/-- The calls of a second frame, seen from the state before the first. -/
theorem writeFrame_later {s t : State} {n : Nat} (ha : t.answers = s.answers.drop n) (hx : t.xchgs = s.xchgs + n)
    (hs : t.bindSel = s.bindSel) (hc : t.busConfig = s.busConfig) (a : Octet) (v : List Octet) :
    t.writeFrame 0 a v = s.writeFrame n a v := by
  simp [State.writeFrame, State.frameCalls, exchanges_later ha hx, hs, hc]

theorem readFrame_later {s t : State} {n : Nat} (ha : t.answers = s.answers.drop n) (hx : t.xchgs = s.xchgs + n)
    (hs : t.bindSel = s.bindSel) (hc : t.busConfig = s.busConfig) (a : Octet) (m : Nat) :
    t.readFrame 0 a m = s.readFrame n a m := by
  simp [State.readFrame, State.frameCalls, exchanges_later ha hx, hs, hc]

/-- A state that agrees on the Bus Binding and on what the transport answers has the same calls and the same
captured octets. -/
structure SameBus (s t : State) : Prop where
  binding : SameBinding s t
  answers : t.answers = s.answers
  xchgs : t.xchgs = s.xchgs

section
variable {s t : State} (h : SameBus s t)
include h

theorem SameBus.answerAt (k : Nat) : t.answerAt k = s.answerAt k := by
  simp [State.answerAt, h.answers, h.xchgs]

theorem SameBus.wordAt (k : Nat) : t.wordAt k = s.wordAt k := by
  simp [State.wordAt, h.answerAt, h.binding.2.2.1]

theorem SameBus.answersFrom (j n : Nat) : t.answersFrom j n = s.answersFrom j n := by
  simp [State.answersFrom, h.answerAt]

theorem SameBus.wordsFrom (j n : Nat) : t.wordsFrom j n = s.wordsFrom j n := by
  simp [State.wordsFrom, h.wordAt]

theorem SameBus.exchanges (outs : List Octet) : ∀ j, t.exchanges j outs = s.exchanges j outs := by
  induction outs with
  | nil => intro j; rfl
  | cons o os ih => intro j; simp [State.exchanges, h.answerAt, ih]

theorem SameBus.frameCalls (j : Nat) (a : Octet) (outs : List Octet) : t.frameCalls j a outs = s.frameCalls j a outs := by
  obtain ⟨h1, h2, h3, h4⟩ := h.binding
  simp [State.frameCalls, h.exchanges, State.busConfig, h1, h2, h3, h4]

theorem SameBus.readFrame (j : Nat) (a : Octet) (n : Nat) : t.readFrame j a n = s.readFrame j a n := h.frameCalls ..

theorem SameBus.writeFrame (j : Nat) (a : Octet) (v : List Octet) : t.writeFrame j a v = s.writeFrame j a v :=
  h.frameCalls ..

end

/-! ## Arrays and single registers -/

theorem exec_rdba (a : Octet) (c : BitVec 8) (s : State) :
    exec (.rdba a c) s = .next (s.finished (c.toNat + 1) (s.readFrame 0 a c.toNat) c.toNat (countRes c.toNat) s.rdata
      (storeFrom 0 ((s.answersFrom 1 c.toNat).map zext16) s).dbuf s.wacc 0) := by
  simp only [exec, execRdba, memRead_eq, completeRead, complete, answersFrom_length, Width.octets, Nat.div_one]
  rw [storeFrom_eq]
  congr 1
  simp only [State.finished, State.exchanged]
  congr 1
  exact storeFrom_dbuf_congr _ _ _ _ rfl

theorem exec_rdwa (a : Octet) (c : BitVec 8) (s : State) :
    exec (.rdwa a c) s = .next (s.finished (2 * c.toNat + 1) (s.readFrame 0 a (2 * c.toNat)) c.toNat
      (countRes c.toNat) s.rdata (storeFrom 0 (s.wordsFrom 1 c.toNat) s).dbuf
      (((s.wordsFrom 1 c.toNat).getLast?).getD s.wacc) 0) := by
  simp only [exec, execRdwa, frame_storeWords, completeRead, complete]
  rw [storeFrom_eq]
  congr 1
  simp only [State.finished, State.exchanged, State.readFrame, readAddr, readFlag]
  congr 1
  exact storeFrom_dbuf_congr _ _ _ _ rfl

theorem exec_wrba (a : Octet) (c : BitVec 8) (s : State) :
    exec (.wrba a c) s = .next (s.finished (c.toNat + 1)
      (s.writeFrame 0 a ((s.elements c.toNat).map loOctet)) c.toNat 1 s.rdata s.dbuf s.wacc 0) := by
  have h := elements_length s c.toNat (by have := c.isLt; omega)
  simp [exec, execWrba, memWrite_eq, h, completeWrite, complete, boolRes, Width.octets, State.finished,
    State.exchanged]

theorem exec_wrwa (a : Octet) (c : BitVec 8) (s : State) :
    exec (.wrwa a c) s = .next (s.finished (2 * c.toNat + 1)
      (s.writeFrame 0 a ((s.elements c.toNat).flatMap fun x => [hiOctet x, loOctet x])) c.toNat 1 s.rdata s.dbuf
      s.wacc 0) := by
  have h := elements_length s c.toNat (by have := c.isLt; omega)
  have h2 : ((s.elements c.toNat).flatMap fun x => [hiOctet x, loOctet x]).length = 2 * c.toNat := by
    simp [List.length_flatMap, h, Nat.mul_comm]
  rw [exec, execWrwa, show wordOctets Config.wrWordOrder s.bindOrder = fun x => [hiOctet x, loOctet x] from
    funext (wordOctets_config s.bindOrder), memWrite_eq, h2]
  simp [completeWrite, complete, boolRes, Width.octets, State.finished, State.exchanged]

theorem exec_rdb (a : Octet) (s : State) :
    exec (.rdb a) s = .next (s.finished 2 (s.readFrame 0 a 1) 1 1 ((s.answerAt 1).setWidth 16) s.dbuf s.wacc 0) := by
  simp only [exec, execRdb, readReg8_eq]
  rfl

theorem exec_rdw (a : Octet) (s : State) :
    exec (.rdw a) s = .next (s.finished 3 (s.readFrame 0 a 2) 1 1 (s.wordAt 1) s.dbuf (s.wordAt 1) 0) := by
  simp only [exec, execRdw, readReg16_eq]
  rfl

theorem exec_wrb (a v : Octet) (s : State) :
    exec (.wrb a v) s = .next (s.finished 2 (s.writeFrame 0 a [v]) 1 1 s.rdata s.dbuf s.wacc 0) := by
  simp only [exec, execWrb, writeReg8_eq]
  rfl

theorem exec_wrw (a : Octet) (v : Word) (s : State) :
    exec (.wrw a v) s = .next (s.finished 3 (s.writeFrame 0 a [hiOctet v, loOctet v]) 1 1 s.rdata s.dbuf s.wacc 0) := by
  simp only [exec, execWrw, writeReg16_eq]
  rfl

/-! ## Bits and fields -/

theorem exec_rdbitB (a : Octet) (n : Nat) (s : State) :
    exec (.rdbitB a n) s = .next (s.finished 2 (s.readFrame 0 a 1) 1 1
      (zext16 (valueOr (validBit n 8) (readBit (s.answerAt 1) n) s.draws)) s.dbuf s.wacc (drawsOf (validBit n 8))) := by
  simp only [exec, execRdbitB, readReg8_eq, finishReadBit, computed_eq]
  rfl

theorem exec_rdbitW (a : Octet) (n : Nat) (s : State) :
    exec (.rdbitW a n) s = .next (s.finished 3 (s.readFrame 0 a 2) 1 1
      (zext16 (valueOr (validBit n 16) (readBit (s.wordAt 1) n) s.draws)) s.dbuf (s.wordAt 1)
      (drawsOf (validBit n 16))) := by
  simp only [exec, execRdbitW, readReg16_eq, finishReadBit, computed_eq]
  rfl

theorem exec_rdbitsB (a : Octet) (b l : Nat) (s : State) :
    exec (.rdbitsB a b l) s = .next (s.finished 2 (s.readFrame 0 a 1) 1 1
      (zext16 (valueOr (validField b l 8) (extractField (s.answerAt 1) b l) s.draws)) s.dbuf s.wacc
      (drawsOf (validField b l 8))) := by
  simp only [exec, execRdbitsB, readReg8_eq, finishReadField, computed_eq]
  rfl

theorem exec_rdbitsW (a : Octet) (b l : Nat) (s : State) :
    exec (.rdbitsW a b l) s = .next (s.finished 3 (s.readFrame 0 a 2) 1 1
      (zext16 (valueOr (validField b l 16) (extractField (s.wordAt 1) b l) s.draws)) s.dbuf (s.wordAt 1)
      (drawsOf (validField b l 16))) := by
  simp only [exec, execRdbitsW, readReg16_eq, finishReadField, computed_eq]
  rfl

/-- The state after the write frame of a bit or field write, from the state `t` after its read. -/
theorem finish_write {s t : State} {n m drawn : Nat} {calls : List Call} {wacc : Word}
    (ht : t = { s with
      trace := s.trace ++ calls, answers := s.answers.drop n, xchgs := s.xchgs + n, phase := .deselected, idx := 1
      half := false, wacc := wacc, draws := s.draws + drawn, frameNo := .second }) (a : Octet) (v : List Octet) :
    completeWrite true { t.exchanged m (t.writeFrame 0 a v) .deselected 1 with half := false } =
      s.finished (n + m) (calls ++ s.writeFrame n a v) 1 1 s.rdata s.dbuf wacc drawn := by
  subst ht
  have h := writeFrame_later (s := s) (n := n) (t := { s with
      trace := s.trace ++ calls, answers := s.answers.drop n, xchgs := s.xchgs + n, phase := .deselected, idx := 1
      half := false, wacc := wacc, draws := s.draws + drawn, frameNo := .second }) rfl rfl rfl rfl a v
  simp only [h]
  simp [completeWrite, complete, boolRes, State.finished, State.exchanged, Nat.add_assoc]

/-- The octet WRBIT.B writes back. -/
def bitOut8 (n : Nat) (v : Bool) (s : State) : Octet :=
  valueOr (validBit n 8) (writeBit (s.answerAt 1) n v) s.draws

/-- The word WRBIT.W writes back. -/
def bitOut16 (n : Nat) (v : Bool) (s : State) : Word :=
  valueOr (validBit n 16) (writeBit (s.wordAt 1) n v) s.draws

/-- The octet WRBITS.B writes back. -/
def fieldOut8 (b l : Nat) (v : Octet) (s : State) : Octet :=
  valueOr (validField b l 8 && valueFits l v) (insertField (s.answerAt 1) b l v) s.draws

/-- The word WRBITS.W writes back. -/
def fieldOut16 (b l : Nat) (v : Word) (s : State) : Word :=
  valueOr (validField b l 16 && valueFits l v) (insertField (s.wordAt 1) b l v) s.draws

theorem exec_wrbitB (a : Octet) (n : Nat) (v : Bool) (s : State) :
    exec (.wrbitB a n v) s = .next (s.finished 4 (s.readFrame 0 a 1 ++ s.writeFrame 2 a [bitOut8 n v s]) 1 1 s.rdata
      s.dbuf s.wacc (drawsOf (validBit n 8))) := by
  simp only [exec, execWrbitB, readReg8_eq, finishWriteBit, computed_eq, writeReg8_eq]
  exact congrArg Host.Outcome.next
    (finish_write (s := s) (n := 2) (m := 2) (calls := s.readFrame 0 a 1) (wacc := s.wacc) rfl a _)

theorem exec_wrbitW (a : Octet) (n : Nat) (v : Bool) (s : State) :
    exec (.wrbitW a n v) s = .next (s.finished 6
      (s.readFrame 0 a 2 ++ s.writeFrame 3 a [hiOctet (bitOut16 n v s), loOctet (bitOut16 n v s)]) 1 1 s.rdata
      s.dbuf (s.wordAt 1) (drawsOf (validBit n 16))) := by
  simp only [exec, execWrbitW, readReg16_eq, finishWriteBit, computed_eq, writeReg16_eq]
  exact congrArg Host.Outcome.next
    (finish_write (s := s) (n := 3) (m := 3) (calls := s.readFrame 0 a 2) (wacc := s.wordAt 1) rfl a _)

theorem exec_wrbitsB (a : Octet) (b l : Nat) (v : Octet) (s : State) :
    exec (.wrbitsB a b l v) s = .next (s.finished 4
      (s.readFrame 0 a 1 ++ s.writeFrame 2 a [fieldOut8 b l v s]) 1 1 s.rdata s.dbuf s.wacc
      (drawsOf (validField b l 8 && valueFits l v))) := by
  simp only [exec, execWrbitsB, readReg8_eq, finishWriteField, computed_eq, writeReg8_eq]
  exact congrArg Host.Outcome.next
    (finish_write (s := s) (n := 2) (m := 2) (calls := s.readFrame 0 a 1) (wacc := s.wacc) rfl a _)

theorem exec_wrbitsW (a : Octet) (b l : Nat) (v : Word) (s : State) :
    exec (.wrbitsW a b l v) s = .next (s.finished 6
      (s.readFrame 0 a 2 ++ s.writeFrame 3 a [hiOctet (fieldOut16 b l v s), loOctet (fieldOut16 b l v s)]) 1 1 s.rdata
      s.dbuf (s.wordAt 1) (drawsOf (validField b l 16 && valueFits l v))) := by
  simp only [exec, execWrbitsW, readReg16_eq, finishWriteField, computed_eq, writeReg16_eq]
  exact congrArg Host.Outcome.next
    (finish_write (s := s) (n := 3) (m := 3) (calls := s.readFrame 0 a 2) (wacc := s.wordAt 1) rfl a _)

/-! ## The shim -/

/-- The simple instruction an X-form forwards to; a simple instruction is its own (43_shim.md R170). -/
def counterpart : Instr → Instr
  | .rdba a b => .rdba a b
  | .rdwa a b => .rdwa a b
  | .wrba a b => .wrba a b
  | .wrwa a b => .wrwa a b
  | .rdb a => .rdb a
  | .rdw a => .rdw a
  | .wrb a b => .wrb a b
  | .wrw a b => .wrw a b
  | .rdbitB a b => .rdbitB a b
  | .rdbitW a b => .rdbitW a b
  | .rdbitsB a b c => .rdbitsB a b c
  | .rdbitsW a b c => .rdbitsW a b c
  | .wrbitB a b c => .wrbitB a b c
  | .wrbitW a b c => .wrbitW a b c
  | .wrbitsB a b c d => .wrbitsB a b c d
  | .wrbitsW a b c d => .wrbitsW a b c d
  | .xrdba _ a b _ => .rdba a b
  | .xrdwa _ a b _ => .rdwa a b
  | .xwrba _ a b _ => .wrba a b
  | .xwrwa _ a b _ => .wrwa a b
  | .xrdb _ a _ => .rdb a
  | .xrdw _ a _ => .rdw a
  | .xwrb _ a b _ => .wrb a b
  | .xwrw _ a b _ => .wrw a b
  | .xrdbitB _ a b _ => .rdbitB a b
  | .xrdbitW _ a b _ => .rdbitW a b
  | .xrdbitsB _ a b c _ => .rdbitsB a b c
  | .xrdbitsW _ a b c _ => .rdbitsW a b c
  | .xwrbitB _ a b c _ => .wrbitB a b c
  | .xwrbitW _ a b c _ => .wrbitW a b c
  | .xwrbitsB _ a b c d _ => .wrbitsB a b c d
  | .xwrbitsW _ a b c d _ => .wrbitsW a b c d

/-- An X-form does in every state what its counterpart does (R170). -/
theorem exec_counterpart (i : Instr) (s : State) : exec i s = exec (counterpart i) s := by cases i <;> rfl

theorem payloadCount_counterpart (i : Instr) : payloadCount i = payloadCount (counterpart i) := by cases i <;> rfl

theorem frameCount_counterpart (i : Instr) : frameCount i = frameCount (counterpart i) := by cases i <;> rfl

end Sys2Proof.Machine
end

