-- ==== Sys2Proof/Laws/PerInstr.lean ====
section
/-! SUPPORT. The family `Fields`, per instruction: operation, W and S of the encoded word are those the mnemonic stands
for (30_encoding.md R81, R83, R90). -/

namespace Sys2Proof.Laws.Fields

/-- OP, W and S of the word name the instruction. -/
def Statement (i : Instr) : Prop :=
  ∃ op, fieldOp (encode i) = op.code ∧
    (instrOf op (fieldW (encode i)) (fieldS (encode i)) (encode i)).mnemonic = i.mnemonic

theorem rdba (addr : Octet) (count : BitVec 8) : Statement (.rdba addr count) :=
  ⟨.rda, by rw [encode, fieldOp_pack], by simp only [encode, fieldW_pack, fieldS_pack]; rfl⟩

theorem rdwa (addr : Octet) (count : BitVec 8) : Statement (.rdwa addr count) :=
  ⟨.rda, by rw [encode, fieldOp_pack], by simp only [encode, fieldW_pack, fieldS_pack]; rfl⟩

theorem wrba (addr : Octet) (count : BitVec 8) : Statement (.wrba addr count) :=
  ⟨.wra, by rw [encode, fieldOp_pack], by simp only [encode, fieldW_pack, fieldS_pack]; rfl⟩

theorem wrwa (addr : Octet) (count : BitVec 8) : Statement (.wrwa addr count) :=
  ⟨.wra, by rw [encode, fieldOp_pack], by simp only [encode, fieldW_pack, fieldS_pack]; rfl⟩

theorem rdb (addr : Octet) : Statement (.rdb addr) :=
  ⟨.rd1, by rw [encode, fieldOp_pack], by simp only [encode, fieldW_pack, fieldS_pack]; rfl⟩

theorem rdw (addr : Octet) : Statement (.rdw addr) :=
  ⟨.rd1, by rw [encode, fieldOp_pack], by simp only [encode, fieldW_pack, fieldS_pack]; rfl⟩

theorem wrb (addr : Octet) (value : Octet) : Statement (.wrb addr value) :=
  ⟨.wr1, by rw [encode, fieldOp_pack], by simp only [encode, fieldW_pack, fieldS_pack]; rfl⟩

theorem wrw (addr : Octet) (value : Word) : Statement (.wrw addr value) :=
  ⟨.wr1, by rw [encode, fieldOp_pack], by simp only [encode, fieldW_pack, fieldS_pack]; rfl⟩

theorem rdbitB (addr : Octet) (bitNum : Nat) : Statement (.rdbitB addr bitNum) :=
  ⟨.rdbit, by rw [encode, fieldOp_pack], by simp only [encode, fieldW_pack, fieldS_pack]; rfl⟩

theorem rdbitW (addr : Octet) (bitNum : Nat) : Statement (.rdbitW addr bitNum) :=
  ⟨.rdbit, by rw [encode, fieldOp_pack], by simp only [encode, fieldW_pack, fieldS_pack]; rfl⟩

theorem rdbitsB (addr : Octet) (bitStart length : Nat) : Statement (.rdbitsB addr bitStart length) :=
  ⟨.rdbits, by rw [encode, fieldOp_pack], by simp only [encode, fieldW_pack, fieldS_pack]; rfl⟩

theorem rdbitsW (addr : Octet) (bitStart length : Nat) : Statement (.rdbitsW addr bitStart length) :=
  ⟨.rdbits, by rw [encode, fieldOp_pack], by simp only [encode, fieldW_pack, fieldS_pack]; rfl⟩

theorem wrbitB (addr : Octet) (bitNum : Nat) (value : Bool) : Statement (.wrbitB addr bitNum value) :=
  ⟨.wrbit, by rw [encode, fieldOp_pack], by simp only [encode, fieldW_pack, fieldS_pack]; rfl⟩

theorem wrbitW (addr : Octet) (bitNum : Nat) (value : Bool) : Statement (.wrbitW addr bitNum value) :=
  ⟨.wrbit, by rw [encode, fieldOp_pack], by simp only [encode, fieldW_pack, fieldS_pack]; rfl⟩

theorem wrbitsB (addr : Octet) (bitStart length : Nat) (value : Octet) : Statement (.wrbitsB addr bitStart length value) :=
  ⟨.wrbits, by rw [encode, fieldOp_pack], by simp only [encode, fieldW_pack, fieldS_pack]; rfl⟩

theorem wrbitsW (addr : Octet) (bitStart length : Nat) (value : Word) : Statement (.wrbitsW addr bitStart length value) :=
  ⟨.wrbits, by rw [encode, fieldOp_pack], by simp only [encode, fieldW_pack, fieldS_pack]; rfl⟩

theorem xrdba (devAddr addr : Octet) (count : BitVec 8) (timeout : Octet) : Statement (.xrdba devAddr addr count timeout) :=
  ⟨.rda, by rw [encode, fieldOp_pack], by simp only [encode, fieldW_pack, fieldS_pack]; rfl⟩

theorem xrdwa (devAddr addr : Octet) (count : BitVec 8) (timeout : Octet) : Statement (.xrdwa devAddr addr count timeout) :=
  ⟨.rda, by rw [encode, fieldOp_pack], by simp only [encode, fieldW_pack, fieldS_pack]; rfl⟩

theorem xwrba (devAddr addr : Octet) (count : BitVec 8) (timeout : Octet) : Statement (.xwrba devAddr addr count timeout) :=
  ⟨.wra, by rw [encode, fieldOp_pack], by simp only [encode, fieldW_pack, fieldS_pack]; rfl⟩

theorem xwrwa (devAddr addr : Octet) (count : BitVec 8) (timeout : Octet) : Statement (.xwrwa devAddr addr count timeout) :=
  ⟨.wra, by rw [encode, fieldOp_pack], by simp only [encode, fieldW_pack, fieldS_pack]; rfl⟩

theorem xrdb (devAddr addr : Octet) (timeout : Octet) : Statement (.xrdb devAddr addr timeout) :=
  ⟨.rd1, by rw [encode, fieldOp_pack], by simp only [encode, fieldW_pack, fieldS_pack]; rfl⟩

theorem xrdw (devAddr addr : Octet) (timeout : Octet) : Statement (.xrdw devAddr addr timeout) :=
  ⟨.rd1, by rw [encode, fieldOp_pack], by simp only [encode, fieldW_pack, fieldS_pack]; rfl⟩

theorem xwrb (devAddr addr : Octet) (value : Octet) (timeout : Octet) : Statement (.xwrb devAddr addr value timeout) :=
  ⟨.wr1, by rw [encode, fieldOp_pack], by simp only [encode, fieldW_pack, fieldS_pack]; rfl⟩

theorem xwrw (devAddr addr : Octet) (value : Word) (timeout : Octet) : Statement (.xwrw devAddr addr value timeout) :=
  ⟨.wr1, by rw [encode, fieldOp_pack], by simp only [encode, fieldW_pack, fieldS_pack]; rfl⟩

theorem xrdbitB (devAddr addr : Octet) (bitNum : Nat) (timeout : Octet) : Statement (.xrdbitB devAddr addr bitNum timeout) :=
  ⟨.rdbit, by rw [encode, fieldOp_pack], by simp only [encode, fieldW_pack, fieldS_pack]; rfl⟩

theorem xrdbitW (devAddr addr : Octet) (bitNum : Nat) (timeout : Octet) : Statement (.xrdbitW devAddr addr bitNum timeout) :=
  ⟨.rdbit, by rw [encode, fieldOp_pack], by simp only [encode, fieldW_pack, fieldS_pack]; rfl⟩

theorem xrdbitsB (devAddr addr : Octet) (bitStart length : Nat) (timeout : Octet) : Statement (.xrdbitsB devAddr addr bitStart length timeout) :=
  ⟨.rdbits, by rw [encode, fieldOp_pack], by simp only [encode, fieldW_pack, fieldS_pack]; rfl⟩

theorem xrdbitsW (devAddr addr : Octet) (bitStart length : Nat) (timeout : Octet) : Statement (.xrdbitsW devAddr addr bitStart length timeout) :=
  ⟨.rdbits, by rw [encode, fieldOp_pack], by simp only [encode, fieldW_pack, fieldS_pack]; rfl⟩

theorem xwrbitB (devAddr addr : Octet) (bitNum : Nat) (value : Bool) (timeout : Octet) : Statement (.xwrbitB devAddr addr bitNum value timeout) :=
  ⟨.wrbit, by rw [encode, fieldOp_pack], by simp only [encode, fieldW_pack, fieldS_pack]; rfl⟩

theorem xwrbitW (devAddr addr : Octet) (bitNum : Nat) (value : Bool) (timeout : Octet) : Statement (.xwrbitW devAddr addr bitNum value timeout) :=
  ⟨.wrbit, by rw [encode, fieldOp_pack], by simp only [encode, fieldW_pack, fieldS_pack]; rfl⟩

theorem xwrbitsB (devAddr addr : Octet) (bitStart length : Nat) (value : Octet) (timeout : Octet) : Statement (.xwrbitsB devAddr addr bitStart length value timeout) :=
  ⟨.wrbits, by rw [encode, fieldOp_pack], by simp only [encode, fieldW_pack, fieldS_pack]; rfl⟩

theorem xwrbitsW (devAddr addr : Octet) (bitStart length : Nat) (value : Word) (timeout : Octet) : Statement (.xwrbitsW devAddr addr bitStart length value timeout) :=
  ⟨.wrbits, by rw [encode, fieldOp_pack], by simp only [encode, fieldW_pack, fieldS_pack]; rfl⟩

end Sys2Proof.Laws.Fields
end

