-- ==== Sys2Proof/Laws/Shape.lean ====
section
/-! SUPPORT. The shape every legal command has: one or two frames, one answer used for each exchange, and what those
frames do to PHASE, to the select line and to the counts (40_transport_framing.md R112, R113, R120, R124). -/

namespace Sys2Proof.Machine

/-- The calls are one frame, or two frames one after the other, with this many payload octets in all. -/
def IsFrames (s : State) (frames payload : Nat) (calls : List Call) : Prop :=
  (frames = 1 ∧ ∃ a outs, calls = s.frameCalls 0 a outs ∧ outs.length = payload) ∨
  (frames = 2 ∧ ∃ a outs b outs', calls = s.frameCalls 0 a outs ++ s.frameCalls (outs.length + 1) b outs' ∧
    outs.length + outs'.length = payload)

/-- One read frame. -/
theorem isFrames_read (s : State) (a : Octet) (n : Nat) : IsFrames s 1 n (s.readFrame 0 a n) :=
  .inl ⟨rfl, _, _, rfl, List.length_replicate⟩

/-- One write frame. -/
theorem isFrames_write (s : State) (a : Octet) {v : List Octet} {n : Nat} (h : v.length = n) :
    IsFrames s 1 n (s.writeFrame 0 a v) := .inl ⟨rfl, _, _, rfl, h⟩

/-- A read frame of `n` octets and a write frame. -/
theorem isFrames_readWrite (s : State) (a : Octet) (n : Nat) (v : List Octet) :
    IsFrames s 2 (n + v.length) (s.readFrame 0 a n ++ s.writeFrame (n + 1) a v) :=
  .inr ⟨rfl, a ||| 0x80, List.replicate n Config.dummy, a, v,
    by rw [List.length_replicate]; rfl, by rw [List.length_replicate]⟩

/-- Every instruction ends in a finished state: its frames, its answers used up, its result at most 255. -/
theorem exec_shape (i : Instr) (s : State) : ∃ calls idx res rdata dbuf wacc drawn,
    exec i s = .next (s.finished (payloadCount i + frameCount i) calls idx res rdata dbuf wacc drawn) ∧
    IsFrames s (frameCount i) (payloadCount i) calls ∧ idx ≤ 255 ∧ res.toNat ≤ 255 := by
  have hb : ∀ c : BitVec 8, c.toNat ≤ 255 := fun c => by have := c.isLt; omega
  have hc : ∀ c : BitVec 8, (countRes c.toNat).toNat ≤ 255 := fun c => by
    have := c.isLt; simp only [countRes, BitVec.toNat_ofNat]; omega
  have he : ∀ c : BitVec 8, (s.elements c.toNat).length = c.toNat := fun c =>
    elements_length s _ (Nat.le_succ_of_le (hb c))
  have h1 : (1 : Word).toNat ≤ 255 := by decide
  have hw : ∀ c : BitVec 8, ((s.elements c.toNat).flatMap fun x => [hiOctet x, loOctet x]).length = 2 * c.toNat :=
    fun c => by simp [List.length_flatMap, he, Nat.mul_comm]
  have key : ∀ j : Instr, counterpart j = j → ∃ calls idx res rdata dbuf wacc drawn,
      exec j s = .next (s.finished (payloadCount j + frameCount j) calls idx res rdata dbuf wacc drawn) ∧
      IsFrames s (frameCount j) (payloadCount j) calls ∧ idx ≤ 255 ∧ res.toNat ≤ 255 := by
    intro j hj
    cases j
    case rdba a c => exact ⟨_, _, _, _, _, _, _, exec_rdba a c s, isFrames_read s a _, hb c, hc c⟩
    case rdwa a c => exact ⟨_, _, _, _, _, _, _, exec_rdwa a c s, isFrames_read s a _, hb c, hc c⟩
    case wrba a c => exact ⟨_, _, _, _, _, _, _, exec_wrba a c s, isFrames_write s a (by rw [List.length_map, he]; rfl), hb c, h1⟩
    case wrwa a c => exact ⟨_, _, _, _, _, _, _, exec_wrwa a c s, isFrames_write s a (hw c), hb c, h1⟩
    case rdb a => exact ⟨_, _, _, _, _, _, _, exec_rdb a s, isFrames_read s a _, by decide, h1⟩
    case rdw a => exact ⟨_, _, _, _, _, _, _, exec_rdw a s, isFrames_read s a _, by decide, h1⟩
    case wrb a v => exact ⟨_, _, _, _, _, _, _, exec_wrb a v s, isFrames_write s a rfl, by decide, h1⟩
    case wrw a v => exact ⟨_, _, _, _, _, _, _, exec_wrw a v s, isFrames_write s a rfl, by decide, h1⟩
    case rdbitB a n => exact ⟨_, _, _, _, _, _, _, exec_rdbitB a n s, isFrames_read s a _, by decide, h1⟩
    case rdbitW a n => exact ⟨_, _, _, _, _, _, _, exec_rdbitW a n s, isFrames_read s a _, by decide, h1⟩
    case rdbitsB a b l => exact ⟨_, _, _, _, _, _, _, exec_rdbitsB a b l s, isFrames_read s a _, by decide, h1⟩
    case rdbitsW a b l => exact ⟨_, _, _, _, _, _, _, exec_rdbitsW a b l s, isFrames_read s a _, by decide, h1⟩
    case wrbitB a n v => exact ⟨_, _, _, _, _, _, _, exec_wrbitB a n v s, isFrames_readWrite s a 1 _, by decide, h1⟩
    case wrbitW a n v => exact ⟨_, _, _, _, _, _, _, exec_wrbitW a n v s, isFrames_readWrite s a 2 _, by decide, h1⟩
    case wrbitsB a b l v => exact ⟨_, _, _, _, _, _, _, exec_wrbitsB a b l v s, isFrames_readWrite s a 1 _, by decide, h1⟩
    case wrbitsW a b l v => exact ⟨_, _, _, _, _, _, _, exec_wrbitsW a b l v s, isFrames_readWrite s a 2 _, by decide, h1⟩
    all_goals cases hj
  rw [exec_counterpart, payloadCount_counterpart, frameCount_counterpart]
  exact key _ (by cases i <;> rfl)

/-- The word of the pending command is nothing an instruction reads. -/
theorem exec_issue (i : Instr) (s : State) (c : BitVec 64) : exec i (s.issue c) = exec i s := by
  have h : SameBus s (s.issue c) := ⟨⟨rfl, rfl, rfl, rfl⟩, rfl, rfl⟩
  have hs : ∀ vs, (storeFrom 0 vs (s.issue c)).dbuf = (storeFrom 0 vs s).dbuf := fun vs => storeFrom_dbuf_congr vs 0 _ _ rfl
  have he : ∀ n, (s.issue c).elements n = s.elements n := fun _ => rfl
  have key : ∀ j : Instr, counterpart j = j → exec j (s.issue c) = exec j s := by
    intro j hj
    cases j
    all_goals first
      | (cases hj; done)
      | (simp only [exec_rdba, exec_rdwa, exec_wrba, exec_wrwa, exec_rdb, exec_rdw, exec_wrb, exec_wrw, exec_rdbitB,
          exec_rdbitW, exec_rdbitsB, exec_rdbitsW, exec_wrbitB, exec_wrbitW, exec_wrbitsB, exec_wrbitsW, bitOut8, bitOut16,
          fieldOut8, fieldOut16, h.answerAt, h.wordAt, h.answersFrom, h.wordsFrom, h.readFrame, h.writeFrame, hs, he]
         rfl)
  rw [exec_counterpart, exec_counterpart i s]
  exact key _ (by cases i <;> rfl)

/-! ## PHASE over the calls -/

theorem afterAll_append (cs ds : List Call) : ∀ p : Phase, p.afterAll (cs ++ ds) = (p.afterAll cs).bind (·.afterAll ds) := by
  induction cs with
  | nil => intro p; rfl
  | cons c cs ih =>
    intro p
    simp only [List.cons_append, Phase.afterAll]
    split
    · rfl
    · exact ih _

theorem afterAll_exchanges (s : State) (rest : List Call) (outs : List Octet) :
    ∀ j, Phase.payload.afterAll (s.exchanges j outs ++ rest) = Phase.payload.afterAll rest := by
  induction outs with
  | nil => intro j; rfl
  | cons o os ih => intro j; simp [State.exchanges, Phase.afterAll, Phase.after, ih]

/-- A frame is a whole frame (R112). -/
theorem wholeFrames_frameCalls (s : State) (j : Nat) (a : Octet) (outs : List Octet) :
    wholeFrames (s.frameCalls j a outs) := by
  simp [wholeFrames, State.frameCalls, State.exchanges, Phase.afterAll, Phase.after, afterAll_exchanges]

theorem wholeFrames_append {cs ds : List Call} (hc : wholeFrames cs) (hd : wholeFrames ds) : wholeFrames (cs ++ ds) := by
  rw [wholeFrames, afterAll_append, hc]; exact hd

theorem wholeFrames_isFrames {s : State} {f p : Nat} {calls : List Call} (h : IsFrames s f p calls) :
    wholeFrames calls := by
  obtain ⟨-, a, o, rfl, -⟩ | ⟨-, a, o, b, o', rfl, -⟩ := h
  · exact wholeFrames_frameCalls s _ a o
  · exact wholeFrames_append (wholeFrames_frameCalls s _ a o) (wholeFrames_frameCalls s _ b o')

/-! ## The select line over the calls -/

theorem lineActiveFrom_append (line : BitVec 8) (cs ds : List Call) : ∀ now,
    lineActiveFrom line now (cs ++ ds) = lineActiveFrom line (lineActiveFrom line now cs) ds := by
  induction cs with
  | nil => intro now; rfl
  | cons c cs ih => intro now; cases c <;> exact ih _

theorem lineActiveFrom_exchanges (line : BitVec 8) (s : State) (outs : List Octet) : ∀ j now,
    lineActiveFrom line now (s.exchanges j outs) = now := by
  induction outs with
  | nil => intro j now; rfl
  | cons o os ih => intro j now; exact ih _ _

/-- A frame leaves a line that was inactive inactive (R213). -/
theorem lineActiveFrom_frameCalls (line : BitVec 8) (s : State) (j : Nat) (a : Octet) (outs : List Octet) :
    lineActiveFrom line false (s.frameCalls j a outs) = false := by
  simp [State.frameCalls, State.exchanges, lineActiveFrom, lineActiveFrom_append, lineActiveFrom_exchanges]

theorem lineActiveFrom_isFrames (line : BitVec 8) {s : State} {f p : Nat} {calls : List Call}
    (h : IsFrames s f p calls) : lineActiveFrom line false calls = false := by
  obtain ⟨-, a, o, rfl, -⟩ | ⟨-, a, o, b, o', rfl, -⟩ := h
  · exact lineActiveFrom_frameCalls line s _ a o
  · rw [lineActiveFrom_append, lineActiveFrom_frameCalls, lineActiveFrom_frameCalls]

/-! ## Counting -/

/-- How many exchanges pass a test that every exchange passes, or none. -/
theorem countP_exchanges (s : State) (p : Call → Bool) (all : Bool) (h : ∀ out ans, p (.xchg out ans) = all)
    (outs : List Octet) : ∀ j, (s.exchanges j outs).countP p = if all then outs.length else 0 := by
  induction outs with
  | nil => intro j; cases all <;> rfl
  | cons o os ih => intro j; cases all <;> simp [State.exchanges, h, ih]

/-! ## STATUS -/

@[simp] theorem statusRes_statusWord (res : Word) (ill : Bool) : statusRes (statusWord res ill) = res :=
  BitVec.eq_of_getLsbD_eq fun i hi => by
    rw [statusRes, BitVec.getLsbD_extractLsb', statusWord, BitVec.getLsbD_append]; simp [hi]

@[simp] theorem statusIll_statusWord (res : Word) (ill : Bool) : statusIll (statusWord res ill) = ill := by
  simp only [statusIll, statusWord, BitVec.getLsbD_append]; cases ill <;> rfl

@[simp] theorem statusReserved_statusWord (res : Word) (ill : Bool) : statusReserved (statusWord res ill) = 0 :=
  BitVec.eq_of_getLsbD_eq fun i hi => by
    rw [statusReserved, BitVec.getLsbD_extractLsb', statusWord, BitVec.getLsbD_append, BitVec.getLsbD_append]
    rw [if_neg (show ¬ 17 + i < 16 by omega), if_neg (show ¬ 17 + i - 16 < 1 by omega)]
    simp

/-- A result below 2^15 is its own count (R26). -/
theorem statusCount_statusWord (res : Word) (ill : Bool) (h : res.toNat < 2 ^ 15) :
    statusCount (statusWord res ill) = res.toNat := by
  rw [statusCount, statusRes_statusWord, BitVec.toInt_eq_toNat_of_lt (by omega)]

end Sys2Proof.Machine
end

