-- ==== Sys2Proof/Tests/Slice0.lean ====
section
/-! SUPPORT. Small tests.  Expected results are the vectors of spec/95_test_vectors.md (the vector's id stands in the
comment) or hand calculation from the rule named; words are written out from the encoding of 30_encoding.md R81,
R82, R90. -/

namespace Sys2Proof.Tests

open Sys2Proof.Machine

/-! ## Well-formedness: an ill-formed term for each check -/

/-- BITPOS takes at most 15 and LENGTH at most 31 (R82), in each simple form. -/
theorem test_ill_formed_simple : ([
  .rdbitB 0x1A 16,
  .rdbitW 0x0C 16,
  .rdbitsB 0x1A 16 3,
  .rdbitsB 0x1A 4 32,
  .rdbitsW 0x0C 16 3,
  .rdbitsW 0x0C 4 32,
  .wrbitB 0x6B 16 true,
  .wrbitW 0x0C 16 true,
  .wrbitsB 0x1A 16 3 5,
  .wrbitsB 0x1A 4 32 5,
  .wrbitsW 0x0C 16 3 5,
  .wrbitsW 0x0C 4 32 5] : List Instr).all (fun i => !i.wellFormed) = true := by decide

/-- The same in each X-form. -/
theorem test_ill_formed_shim : ([
  .xrdbitB 1 0x1A 16 2,
  .xrdbitW 1 0x0C 16 2,
  .xrdbitsB 1 0x1A 16 3 2,
  .xrdbitsB 1 0x1A 4 32 2,
  .xrdbitsW 1 0x0C 16 3 2,
  .xrdbitsW 1 0x0C 4 32 2,
  .xwrbitB 1 0x6B 16 true 2,
  .xwrbitW 1 0x0C 16 true 2,
  .xwrbitsB 1 0x1A 16 3 5 2,
  .xwrbitsB 1 0x1A 4 32 5 2,
  .xwrbitsW 1 0x0C 16 3 5 2,
  .xwrbitsW 1 0x0C 4 32 5 2] : List Instr).all (fun i => !i.wellFormed) = true := by decide

/-- The largest fields are well formed, a descriptor outside the register among them (R86). -/
theorem test_well_formed : (Instr.xwrbitsB 0xFF 0xFF 15 31 0xFF 0xFF).wellFormed = true := by decide

/-! ## Decoding: one word of every row (R90; the vector of 95_test_vectors.md named where there is one) -/

/-- A1 -/
theorem test_decode_rdba : decode 0x0000000000023B01 = .ok (.rdba 0x3B 2) := by decide

/-- A5 -/
theorem test_decode_rdwa : decode 0x0000000000031011 = .ok (.rdwa 0x10 3) := by decide

/-- A8 -/
theorem test_decode_wrba : decode 0x0000000000021002 = .ok (.wrba 0x10 2) := by decide

/-- A11 -/
theorem test_decode_wrwa : decode 0x0000000000022012 = .ok (.wrwa 0x20 2) := by decide

/-- S1 -/
theorem test_decode_rdb : decode 0x0000000000007503 = .ok (.rdb 0x75) := by decide

/-- S2 -/
theorem test_decode_rdw : decode 0x0000000000000213 = .ok (.rdw 0x02) := by decide

/-- S5 -/
theorem test_decode_wrb : decode 0x000000FF0000EB04 = .ok (.wrb 0xEB 0xFF) := by decide

/-- S6 -/
theorem test_decode_wrw : decode 0x0000ABCD00000214 = .ok (.wrw 0x02 0xABCD) := by decide

/-- B1 -/
theorem test_decode_rdbitB : decode 0x0000000000031A05 = .ok (.rdbitB 0x1A 3) := by decide

/-- B5 -/
theorem test_decode_rdbitW : decode 0x00000000000F0C15 = .ok (.rdbitW 0x0C 15) := by decide

/-- F1 -/
theorem test_decode_rdbitsB : decode 0x0000000003041A06 = .ok (.rdbitsB 0x1A 4 3) := by decide

/-- N3 -/
theorem test_decode_rdbitsW : decode 0x00000000110F0C16 = .ok (.rdbitsW 0x0C 15 17) := by decide

/-- B10 -/
theorem test_decode_wrbitB : decode 0x0000000100006B07 = .ok (.wrbitB 0x6B 0 true) := by decide

/-- B15 -/
theorem test_decode_wrbitW : decode 0x0000000000020C17 = .ok (.wrbitW 0x0C 2 false) := by decide

/-- F11 -/
theorem test_decode_wrbitsB : decode 0x0000000503041A08 = .ok (.wrbitsB 0x1A 4 3 5) := by decide

/-- F18 -/
theorem test_decode_wrbitsW : decode 0x0000BEEF100F0C18 = .ok (.wrbitsW 0x0C 15 16 0xBEEF) := by decide

/-- X1 -/
theorem test_decode_xrdba : decode 0x6468000000023B21 = .ok (.xrdba 0x68 0x3B 2 0x64) := by decide

/-- X10 -/
theorem test_decode_xrdwa : decode 0x6468000000021031 = .ok (.xrdwa 0x68 0x10 2 0x64) := by decide

/-- X11 -/
theorem test_decode_xwrba : decode 0x6468000000021022 = .ok (.xwrba 0x68 0x10 2 0x64) := by decide

/-- X12 -/
theorem test_decode_xwrwa : decode 0x6468000000022032 = .ok (.xwrwa 0x68 0x20 2 0x64) := by decide

/-- X13 -/
theorem test_decode_xrdb : decode 0x6468000000007523 = .ok (.xrdb 0x68 0x75 0x64) := by decide

/-- X4 -/
theorem test_decode_xrdw : decode 0x6468000000000233 = .ok (.xrdw 0x68 0x02 0x64) := by decide

/-- X14 -/
theorem test_decode_xwrb : decode 0x6468000100006B24 = .ok (.xwrb 0x68 0x6B 0x01 0x64) := by decide

/-- X5 -/
theorem test_decode_xwrw : decode 0x0068ABCD00000234 = .ok (.xwrw 0x68 0x02 0xABCD 0) := by decide

/-- X15 -/
theorem test_decode_xrdbitB : decode 0x6468000000031A25 = .ok (.xrdbitB 0x68 0x1A 3 0x64) := by decide

/-- X16 -/
theorem test_decode_xrdbitW : decode 0x6468000000080C35 = .ok (.xrdbitW 0x68 0x0C 8 0x64) := by decide

/-- X6 -/
theorem test_decode_xrdbitsB : decode 0x6468000003041A26 = .ok (.xrdbitsB 0x68 0x1A 4 3 0x64) := by decide

/-- X17 -/
theorem test_decode_xrdbitsW : decode 0x64680000080B0C36 = .ok (.xrdbitsW 0x68 0x0C 11 8 0x64) := by decide

/-- X9 -/
theorem test_decode_xwrbitB : decode 0x0068000000066B27 = .ok (.xwrbitB 0x68 0x6B 6 false 0) := by decide

/-- X18 -/
theorem test_decode_xwrbitW : decode 0x64680001000F0C37 = .ok (.xwrbitW 0x68 0x0C 15 true 0x64) := by decide

/-- X7 -/
theorem test_decode_xwrbitsB : decode 0x0068000503041A28 = .ok (.xwrbitsB 0x68 0x1A 4 3 5 0) := by decide

/-- X8 -/
theorem test_decode_xwrbitsW : decode 0xFF6800FF080B0C38 = .ok (.xwrbitsW 0x68 0x0C 11 8 0xFF 0xFF) := by decide

/-- One word of each format written out field by field, bit by bit (R81, R82): A, R1, W1, B. -/
theorem test_decode_bits_1 :
    decode (0b00000000#8 ++ 0b00000000#8 ++ 0b000000000000000000000000#24 ++ 0b11111111#8 ++ 0b10000001#8 ++
      0b00#2 ++ 0b0#1 ++ 0b1#1 ++ 0b0001#4) = .ok (.rdwa 0x81 255) ∧
    decode (0b10000000#8 ++ 0b00000001#8 ++ 0b00000000000000000000000000000000#32 ++ 0b01110101#8 ++
      0b00#2 ++ 0b1#1 ++ 0b0#1 ++ 0b0011#4) = .ok (.xrdb 0x01 0x75 0x80) ∧
    decode (0b00000000#8 ++ 0b00000000#8 ++ 0b1010101111001101#16 ++ 0b0000000000000000#16 ++ 0b00000010#8 ++
      0b00#2 ++ 0b0#1 ++ 0b1#1 ++ 0b0100#4) = .ok (.wrw 0x02 0xABCD) ∧
    decode (0b00000000#8 ++ 0b00000000#8 ++ 0b0000000000000000000000000000#28 ++ 0b1100#4 ++ 0b00011010#8 ++
      0b00#2 ++ 0b0#1 ++ 0b0#1 ++ 0b0101#4) = .ok (.rdbitB 0x1A 12) := by decide

/-- The same for formats F, BW, FW. -/
theorem test_decode_bits_2 :
    decode (0b00000000#8 ++ 0b00000000#8 ++ 0b0000000000000000000#19 ++ 0b10001#5 ++ 0b0000#4 ++ 0b1111#4 ++
      0b00001100#8 ++ 0b00#2 ++ 0b0#1 ++ 0b1#1 ++ 0b0110#4) = .ok (.rdbitsW 0x0C 15 17) ∧
    decode (0b00000000#8 ++ 0b00000000#8 ++ 0b000000000000000#15 ++ 0b1#1 ++ 0b000000000000#12 ++ 0b0110#4 ++
      0b01101011#8 ++ 0b00#2 ++ 0b0#1 ++ 0b0#1 ++ 0b0111#4) = .ok (.wrbitB 0x6B 6 true) ∧
    decode (0b00000000#8 ++ 0b00000000#8 ++ 0b00000000#8 ++ 0b00000101#8 ++ 0b000#3 ++ 0b00011#5 ++ 0b0000#4 ++
      0b0100#4 ++ 0b00011010#8 ++ 0b00#2 ++ 0b0#1 ++ 0b0#1 ++ 0b1000#4) = .ok (.wrbitsB 0x1A 4 3 5) ∧
    decode (0b01100100#8 ++ 0b01101000#8 ++ 0b1011111011101111#16 ++ 0b000#3 ++ 0b10000#5 ++ 0b0000#4 ++ 0b1111#4 ++
      0b00001100#8 ++ 0b00#2 ++ 0b1#1 ++ 0b1#1 ++ 0b1000#4) = .ok (.xwrbitsW 0x68 0x0C 15 16 0xBEEF 0x64) := by
  decide

/-- The illegal words I1 to I20. -/
def illegalWords : List (BitVec 64) :=
  [0x0000000000000000, 0x0000000000003B09, 0x000000000000000F, 0xFFFFFFFFFFFFFFFF, 0x0000000000023B41,
   0x0000000000023B81, 0x0001000000023B01, 0x6400000000023B01, 0x0000000001023B01, 0x0000000000017503] ++
  [0x0000010000006B04, 0x0000000000016B04, 0x0000000000101A05, 0x0000000100031A05, 0x0000000003141A06,
   0x0000000023041A06, 0x0000000200066B07, 0x0000000001066B07, 0x0000010503041A08, 0x0000000523041A08]

/-- I1 to I20 are all illegal. -/
theorem test_illegal_words : illegalWords.all (fun c => match decode c with
    | .ok _ => false
    | .error _ => true) = true := by decide

/-- The legal words printed "for contrast" under I20. -/
theorem test_legal_contrast : decode 0x0000000000000021 = .ok (.xrdba 0 0 0 0) ∧
    decode 0x0000FFFF00000214 = .ok (.wrw 0x02 0xFFFF) ∧
    decode 0xFFFF000000023B21 = .ok (.xrdba 0xFF 0x3B 2 0xFF) := by decide

/-- The rows of the table are 32, their patterns lie under their masks, and no two overlap (R90). -/
theorem test_rows_disjoint : opcodeTable.length = 32 ∧ opcodeTable.all (fun r => r.pattern &&& ~~~r.mask == 0) = true ∧
    opcodeTable.Pairwise (fun r q => (r.pattern ^^^ q.pattern) &&& r.mask &&& q.mask ≠ 0) := by decide

/-- The decoder's must-be-zero bits of RDBITS.B and of XWRBITS.W are the zero bits of those rows (R89, R90). -/
theorem test_table_words : decodeTableWord 64 0x0000000000000006 = some (.rdbitsB 0 0 0) ∧
    decodeTableWord 64 0x0000000000000038 = some (.xwrbitsW 0 0 0 0 0 0) ∧
    decodeTableWord 64 0x0000000020000006 = none ∧ decodeTableWord 8 0x01FF = none := by decide

/-! ## One step on a small state -/

/-- A state with this BIND_ORDER, these answers after the discarded one, and these first two entries of DBUF. -/
def start (order : ByteOrder) (answers : List Octet) (d0 d1 : Word) : State :=
  { State.reset with
    bindSel := 0x5A, bindClk := 1000000, bindOrder := order, bindMode := 1, rtimeout := 0x1234, rdata := 0x5A5A
    dbuf := ((Vector.replicate 256 0x7777).set 0 d0).set 1 d1
    idx := 0, half := false, wacc := 0, answers := 0xEE :: answers }

/-- The state one step after the command `c` is issued. -/
def after (c : BitVec 64) (s : State) : State :=
  match step (s.issue c) with
  | .next t => t
  | .fault _ => s
  | .refused _ => s

/-- The octets sent, over all frames. -/
def sent (s : State) : List Octet := s.trace.filterMap fun c => match c with
  | .xchg out _ => some out
  | _ => none

/-- RES and RDATA. -/
def result (s : State) : Word × Word := (statusRes s.status, s.rdata)

/-- The first three entries of DBUF. -/
def entries (s : State) : List Word := [s.dbufAt 0, s.dbufAt 1, s.dbufAt 2]

open ByteOrder

/-- A1, the whole trace. -/
theorem test_rdba_trace : (after 0x0000000000023B01 (start msbFirst [0x12, 0x34] 0 0)).trace =
    [.beginFrame ⟨1000000, msbFirst, 1⟩, .sel 0x5A, .xchg 0xBB 0xEE, .xchg Config.dummy 0x12, .xchg Config.dummy 0x34,
     .desel 0x5A, .endFrame] := rfl

/-- A1, the state after. -/
theorem test_rdba : let t := after 0x0000000000023B01 (start msbFirst [0x12, 0x34] 0 0)
    result t = (2, 0x5A5A) ∧ entries t = [0x0012, 0x0034, 0x7777] ∧ statusIll t.status = false := by decide +kernel

/-- A5 -/
theorem test_rdwa_msb : let t := after 0x0000000000031011 (start msbFirst [0x11, 0x22, 0x33, 0x44, 0x55, 0x66] 0 0)
    result t = (3, 0x5A5A) ∧ entries t = [0x1122, 0x3344, 0x5566] ∧ t.dbufAt 3 = 0x7777 := by decide +kernel

/-- A6 -/
theorem test_rdwa_lsb : let t := after 0x0000000000031011 (start lsbFirst [0x11, 0x22, 0x33, 0x44, 0x55, 0x66] 0 0)
    entries t = [0x2211, 0x4433, 0x6655] := by decide +kernel

/-- A8 -/
theorem test_wrba : let t := after 0x0000000000021002 (start msbFirst [] 0x00DE 0xFFAD)
    result t = (1, 0x5A5A) ∧ sent t = [0x10, 0xDE, 0xAD] ∧ entries t = [0x00DE, 0xFFAD, 0x7777] := by decide

/-- A9: a count of zero is a frame with the address octet only, and success. -/
theorem test_wrba_zero : let t := after 0x0000000000001002 (start msbFirst [] 0 0)
    result t = (1, 0x5A5A) ∧ sent t = [0x10] ∧ t.trace.length = 5 := by decide

/-- A12: a word write ignores BIND_ORDER. -/
theorem test_wrwa : let t := after 0x0000000000022012 (start lsbFirst [] 0xABCD 0x0102)
    result t = (1, 0x5A5A) ∧ sent t = [0x20, 0xAB, 0xCD, 0x01, 0x02] := by decide

/-- S1 -/
theorem test_rdb : let t := after 0x0000000000007503 (start msbFirst [0x68] 0 0)
    result t = (1, 0x0068) ∧ sent t = [0xF5, Config.dummy] := ⟨by decide, rfl⟩

/-- S3 -/
theorem test_rdw : result (after 0x0000000000000213 (start lsbFirst [0xAB, 0xCD] 0 0)) = (1, 0xCDAB) := by decide

/-- S5: bit 7 of a write address is sent as it is. -/
theorem test_wrb : let t := after 0x000000FF0000EB04 (start msbFirst [] 0 0)
    result t = (1, 0x5A5A) ∧ sent t = [0xEB, 0xFF] := by decide

/-- S7 -/
theorem test_wrw : let t := after 0x0000ABCD00000214 (start lsbFirst [] 0 0)
    result t = (1, 0x5A5A) ∧ sent t = [0x02, 0xAB, 0xCD] := by decide

/-- B4: the bit is not shifted down. -/
theorem test_rdbitB : result (after 0x0000000000071A05 (start msbFirst [0x80] 0 0)) = (1, 0x0080) := by decide

/-- B7 -/
theorem test_rdbitW : result (after 0x0000000000080C15 (start lsbFirst [0x80, 0x01] 0 0)) = (1, 0x0100) := by decide

/-- F1 -/
theorem test_rdbitsB : result (after 0x0000000003041A06 (start msbFirst [0x69] 0 0)) = (1, 0x0002) := by decide

/-- N1: an invalid descriptor still completes with RES = 1, and RDATA holds a free value. -/
theorem test_rdbitsB_invalid : let t := after 0x0000000005021A06 (start msbFirst [0x69] 0 0)
    statusRes t.status = 1 ∧ t.draws = 1 ∧ t.rdata = (Config.freeValue 8 0).setWidth 16 := ⟨by decide, by decide, rfl⟩

/-- F8 -/
theorem test_rdbitsW : result (after 0x00000000080B0C16 (start lsbFirst [0x12, 0x34] 0 0)) = (1, 0x0041) := by decide

/-- B9 -/
theorem test_wrbitB : let t := after 0x0000000000066B07 (start msbFirst [0x40] 0 0)
    result t = (1, 0x5A5A) ∧ sent t = [0xEB, Config.dummy, 0x6B, 0x00] := ⟨by decide, rfl⟩

/-- B14 -/
theorem test_wrbitW : let t := after 0x00000001000F0C17 (start lsbFirst [0x12, 0x34] 0 0)
    result t = (1, 0x5A5A) ∧ sent t = [0x8C, Config.dummy, Config.dummy, 0x0C, 0xB4, 0x12] := ⟨by decide, rfl⟩

/-- F11 -/
theorem test_wrbitsB : let t := after 0x0000000503041A08 (start msbFirst [0x69] 0 0)
    result t = (1, 0x5A5A) ∧ sent t = [0x9A, Config.dummy, 0x1A, 0x75] := ⟨by decide, rfl⟩

/-- F17 -/
theorem test_wrbitsW : let t := after 0x000000FF080B0C18 (start lsbFirst [0x12, 0x34] 0 0)
    result t = (1, 0x5A5A) ∧ sent t = [0x8C, Config.dummy, Config.dummy, 0x0C, 0x3F, 0xF2] := ⟨by decide, rfl⟩

/-- V-ABORT.1, V-ABORT.5: with a read made to report zero, WRBITS has no second frame and fails, WRBIT goes on. -/
theorem test_abort : let r : ReadResult 8 := { readReg8 0x1A (start msbFirst [0x69] 0 0) with n := 0 }
    let t := finishWriteField (writeReg8 0x1A) 4 3 5 r
    let u := finishWriteBit (writeReg8 0x1A) 6 false r
    result t = (0, 0x5A5A) ∧ sent t = [0x9A, Config.dummy] ∧ result u = (1, 0x5A5A) ∧
      sent u = [0x9A, Config.dummy, 0x1A, 0x29] := ⟨by decide, rfl, by decide, rfl⟩

/-- X2, X3: whatever DEVADDR and TIMEOUT are, the X-form does what A1 does. -/
theorem test_xrdba : let t := after 0xFFFF000000023B21 (start msbFirst [0x12, 0x34] 0 0)
    result t = (2, 0x5A5A) ∧ entries t = [0x0012, 0x0034, 0x7777] ∧ sent t = [0xBB, Config.dummy, Config.dummy] :=
  ⟨by decide +kernel, by decide +kernel, rfl⟩

/-- X8 -/
theorem test_xwrbitsW : let t := after 0xFF6800FF080B0C38 (start msbFirst [0x12, 0x34] 0 0)
    sent t = [0x8C, Config.dummy, Config.dummy, 0x0C, 0x1F, 0xF4] := rfl

/-- I4: no call, RES = 0, ILL = 1, nothing else changed. -/
theorem test_illegal_step : let s := start msbFirst [0x12] 0xABCD 0x0102
    let t := after 0xFFFFFFFFFFFFFFFF s
    statusIll t.status = true ∧ result t = (0, 0x5A5A) ∧ t.trace = [] ∧ entries t = entries s ∧ t.cmd = none := by
  decide

/-- W1, W4: WordOctets under the other setting. -/
theorem test_word_octets : wordOctets .followOrder lsbFirst 0xABCD = [0xCD, 0xAB] ∧
    wordOctets .followOrder msbFirst 0xABCD = [0xAB, 0xCD] ∧ wordOctets .fixedMsbFirst lsbFirst 0x00FF = [0x00, 0xFF] := by
  decide

/-- The first and the last row and two others of section 2.5's 8-bit table, and rows of the 16-bit one. -/
theorem test_fmask : [fmask 8 0 0, fmask 8 0 1, fmask 8 4 3, fmask 8 7 0, fmask 8 7 8] = [0x00, 0x01, 0x1C, 0x00, 0xFF] ∧
    [fshift 0 0, fshift 0 1, fshift 4 3, fshift 7 0, fshift 7 8] = [1, 0, 2, 8, 0] ∧
    [fmask 16 15 16, fmask 16 15 1, fmask 16 12 5, fmask 16 15 0] = [0xFFFF, 0x8000, 0x1F00, 0x0000] := by decide

/-- Rows of section 2.5's table of EXTRACT and INSERT. -/
theorem test_extract_insert : extractField 0xA5#8 3 4 = 0x05 ∧ insertField 0xA5#8 3 4 0x0A = 0xAA ∧
    extractField 0x1234#16 11 8 = 0x0023 ∧ insertField 0x1234#16 11 8 0x00FF = 0x1FF4 ∧
    insertField 0x5A#8 7 0 0 = 0x5A ∧ insertField 0x1234#16 15 0 0 = 0x1234 := by decide

/-- A word of the opcode table runs as the first command after reset. -/
theorem test_first_command : step (State.reset.withFetchWord 64 0x0000000000000003) =
    exec (.rdb 0) (State.reset.withFetchWord 64 0x0000000000000003) := rfl

/-- Program P1, step 1: a host write of DBUF[0]; a read of RTIMEOUT; a write of CMD issues the command (R35). -/
theorem test_host_port : let s := start msbFirst [] 0 0
    (s.hostWrite 0x100 0x00DE).dbufAt 0 = 0x00DE ∧ s.hostRead 0x004 = 0x1234 ∧
      (s.hostWrite 0x005 0x7503).cmd = some 0x7503 ∧ s.hostWrite 0x200 1 = s := by decide +kernel

/-! ## Witnesses: a state and operands that meet the hypotheses of each statement together -/

/-- The state one step on, with a command pending. -/
def busy (c : BitVec 64) : State := (start msbFirst [0x69, 0x34, 0x56, 0x69] 0x1122 0x3344).issue c

/-- The same state with one thing for the host to do. -/
def host (x : HostInput) : State := { start msbFirst [] 0x1122 0x3344 with inputs := [x] }

/-- DecodeOfEncodeIsIdentity, at the ends of the fields. -/
theorem witness_wellFormed : (Instr.wrbitsB 0xFF 15 31 0xFF).wellFormed = true ∧ (Instr.rdbitW 0 0).wellFormed = true := by
  decide

/-- EncodeOfDecodeIsIdentity, and the last clause of LegalWordsMatchExactlyOneRow. -/
theorem witness_legal : decode 0xFFFFFFFF1F0FFF38 = .ok (.xwrbitsW 0xFF 0xFF 15 31 0xFFFF 0xFF) := by decide

/-- LegalWordsMatchExactlyOneRow, third clause. -/
theorem witness_row : ∃ r ∈ opcodeTable, (0x0000000503041A08 : BitVec 64) &&& r.mask = r.pattern := by decide

/-- StepRunsTheDecodedCommand, EveryCommandCompletes. -/
theorem witness_pending : (busy 0x0000000000007503).cmd = some 0x0000000000007503 ∧
    decode 0x0000000000007503 = .ok (.rdb 0x75) ∧ decodeTableWord 64 0x0000000000007503 = some (.rdb 0x75) := by decide

/-- IllegalWordOnlySetsStatus, EveryCommandCompletes: both kinds of illegal word. -/
theorem witness_illegal : (busy 0).cmd = some 0 ∧ decode 0 = .error .noOperation ∧
    (busy 0x23B41).cmd = some 0x23B41 ∧ decode 0x23B41 = .error (.mustBeZero 7 6) := by decide

/-- IdleBlockWaits. -/
theorem witness_idle : (start msbFirst [] 0 0).cmd = none ∧ (start msbFirst [] 0 0).inputs = [] := by decide

/-- The value the host has read after one step. -/
def hostSees (n : Nat) : BitVec 32 := match step (host (.read n)) with
  | .next t => t.hostData
  | .fault _ => 0
  | .refused _ => 0

/-- HostReadsTheRegisterMap: each clause at the ends of its range. -/
theorem witness_host_reads : (∀ n, (host (.read n)).cmd = none ∧ (host (.read n)).inputs = [.read n]) ∧
    [0x000, 0x001, 0x002, 0x003, 0x004, 0x005, 0x006, 0x007, 0x008, 0x0FF, 0x100, 0x101, 0x1FF, 0x200].map hostSees =
      [0x5A, 1000000, 0, 1, 0x1234, 0, 0, 0x5A5A, 0, 0, 0x1122, 0x3344, 0x7777, 0] :=
  ⟨fun _ => ⟨rfl, rfl⟩, by decide⟩

/-- The state after one step in which the host writes. -/
def hostWrote (n : Nat) (v : BitVec 64) : State := match step (host (.write n v)) with
  | .next t => t
  | .fault _ => host .reset
  | .refused _ => host .reset

/-- HostWritesTheRegisterMap: each clause at the ends of its range. -/
theorem witness_host_writes :
    (∀ n v, (host (.write n v)).cmd = none ∧ (host (.write n v)).inputs = [.write n v]) ∧
    (hostWrote 0x004 0xABCD).rtimeout = 0xABCD ∧ (hostWrote 0x005 0x7503).cmd = some 0x7503 ∧
    (hostWrote 0x100 0xABCD).dbufAt 0 = 0xABCD ∧ (hostWrote 0x1FF 0xABCD).dbufAt 255 = 0xABCD ∧
    [0x000, 0x003, 0x006, 0x0FF, 0x200].all (fun n => hostWrote n 0xABCD = start msbFirst [] 0x1122 0x3344) = true :=
  ⟨fun _ _ => ⟨rfl, rfl⟩, by decide +kernel⟩

/-- ResetBetweenCommands; BindingIsImmutable, second case. -/
theorem witness_reset : (host .reset).cmd = none ∧ (host .reset).inputs = [.reset] ∧
    ∃ t, step (host .reset) = .next t ∧ SameBinding State.reset t := ⟨rfl, rfl, _, rfl, rfl, rfl, rfl, rfl⟩

/-- EveryStepKeepsTheInvariant; BindingIsImmutable, first case. -/
theorem witness_step : Inv (busy 0x0000000503041A08) ∧
    ∃ t, step (busy 0x0000000503041A08) = .next t ∧ SameBinding (busy 0x0000000503041A08) t :=
  ⟨⟨rfl, rfl, rfl, fun _ => rfl, by decide, by decide, by decide, by decide⟩, _, rfl, rfl, rfl, rfl, rfl⟩

/-- A state that differs from another one in everything a command does not depend on. -/
def other (s : State) : State :=
  { s with rtimeout := 1, status := 7, rdata := 9, phase := .payload, idx := 5, half := true, wacc := 3, hostData := 4 }

/-- CommandsDependOnBindingAndBufferOnly. -/
theorem witness_influences : SameInfluences (busy 0x12012) (other (busy 0x12012)) ∧ (busy 0x12012).cmd = some 0x12012 ∧
    (∃ s', step (busy 0x12012) = .next s') ∧ (∃ t', step (other (busy 0x12012)) = .next t') ∧
    (busy 0x12012).rdata = 0x5A5A ∧ (other (busy 0x12012)).rdata = 9 :=
  ⟨⟨⟨rfl, rfl, rfl, rfl⟩, rfl, rfl, rfl, rfl, rfl, rfl⟩, rfl, ⟨_, rfl⟩, ⟨_, rfl⟩, rfl, rfl⟩

/-- CommandsDependOnBindingAndBufferOnly, last clause: a command that leaves RDATA alone, on equal RDATA. -/
theorem witness_influences_rdata : SameInfluences (busy 0x12012) { other (busy 0x12012) with rdata := 0x5A5A } ∧
    (busy 0x12012).rdata = ({ other (busy 0x12012) with rdata := 0x5A5A } : State).rdata :=
  ⟨⟨⟨rfl, rfl, rfl, rfl⟩, rfl, rfl, rfl, rfl, rfl, rfl⟩, rfl⟩

/-- LastBufferEntryIsNeverAccessed. -/
theorem witness_last_entry : (busy 0x12012).cmd = some 0x12012 ∧ (∃ s', step (busy 0x12012) = .next s') ∧
    ∃ t', step ((busy 0x12012).setDbuf 255 0xBEEF) = .next t' := ⟨rfl, ⟨_, rfl⟩, ⟨_, rfl⟩⟩

/-- ShimWordsActAsTheirCounterparts: a legal and an illegal word with S = 1. -/
theorem witness_shim : (0xFFFF000000023B21 : BitVec 64).getLsbD 5 = true ∧
    decode 0xFFFF000000023B21 = .ok (.xrdba 0xFF 0x3B 2 0xFF) ∧
    (0xFFFF0000000000A1 : BitVec 64).getLsbD 5 = true ∧ decode 0xFFFF0000000000A1 = .error (.mustBeZero 7 6) := by decide

/-- CommandsMakeWholeFrames, OneAnswerForEachExchange, SequencerAndAssemblerAfterACommand: an instruction that
assembles no word, the array read of one word and of none, and a scalar. -/
theorem witness_exec : (∃ t, exec (.wrba 0x10 2) (busy 0) = .next t) ∧ wordReads (.wrba 0x10 2) = 0 ∧
    (∃ t, exec (.rdwa 0x10 1) (busy 0) = .next t) ∧ wordReads (.rdwa 0x10 1) = 1 ∧
    (∃ t, exec (.rdwa 0x10 0) (busy 0) = .next t) ∧ wordReads (.rdwa 0x10 0) = 0 ∧
    (∃ t, exec (.wrbitsW 0x0C 11 8 0xFF) (busy 0) = .next t) ∧ wordReads (.wrbitsW 0x0C 11 8 0xFF) = 1 :=
  ⟨⟨_, rfl⟩, rfl, ⟨_, rfl⟩, rfl, ⟨_, rfl⟩, rfl, ⟨_, rfl⟩, rfl⟩

/-- AnswersDoNotSteerTheCalls: two states with different answers, an instruction of one frame and one of two. -/
theorem witness_steer : SameBinding (busy 0) (start msbFirst [0x01, 0x02, 0x03] 0x1122 0x3344) ∧
    (start msbFirst [0x01, 0x02, 0x03] 0x1122 0x3344).dbuf = (busy 0).dbuf ∧
    frameCount (.rdb 0x75) = 1 ∧ frameCount (.wrbitsW 0x0C 11 8 0xFF) = 2 ∧
    (∃ t, exec (.wrbitsW 0x0C 11 8 0xFF) (busy 0) = .next t) ∧
    ∃ t, exec (.wrbitsW 0x0C 11 8 0xFF) (start msbFirst [0x01, 0x02, 0x03] 0x1122 0x3344) = .next t :=
  ⟨⟨rfl, rfl, rfl, rfl⟩, rfl, rfl, rfl, ⟨_, rfl⟩, ⟨_, rfl⟩⟩

/-- ReadByteArrayFillsBuffer to WriteWordSends: either form of the instruction. -/
theorem witness_forms : ((Instr.rdba 0x3B 2 = .rdba 0x3B 2) ∨ (Instr.rdba 0x3B 2 = .xrdba 1 0x3B 2 3)) ∧
    ((Instr.xrdba 1 0x3B 2 3 = .rdba 0x3B 2) ∨ (Instr.xrdba 1 0x3B 2 3 = .xrdba 1 0x3B 2 3)) := by decide

/-- ReadBitOfOctetDelivers, WriteBitOfOctetReadsThenWrites: the ends of the octet. -/
theorem witness_bit : (0#4).toNat ≤ 7 ∧ (7#4).toNat ≤ 7 ∧ ¬ (8#4).toNat ≤ 7 := by decide

/-- ReadFieldOfOctetDelivers, WriteFieldOfOctetReadsThenWrites, FieldRoundTrip, ExtractAndInsertActOnTheField,
FieldMaskCoversTheField: the ends of the descriptors of an octet. -/
theorem witness_field8 : validField (7#4).toNat (8#5).toNat 8 = true ∧ (0xFF : Octet).toNat < 2 ^ (8#5).toNat ∧
    validField (7#4).toNat (0#5).toNat 8 = true ∧ (0 : Octet).toNat < 2 ^ (0#5).toNat ∧
    validField (0#4).toNat (1#5).toNat 8 = true ∧ (1 : Octet).toNat < 2 ^ (1#5).toNat ∧
    validField (0#4).toNat (0#5).toNat 8 = true := by decide

/-- The same of a word: ReadFieldOfWordDelivers, WriteFieldOfWordReadsThenWrites and the rest. -/
theorem witness_field16 : validField (15#4).toNat (16#5).toNat 16 = true ∧
    (0xFFFF : Word).toNat < 2 ^ (16#5).toNat ∧ validField (15#4).toNat (0#5).toNat 16 = true ∧
    (0 : Word).toNat < 2 ^ (0#5).toNat ∧ validField (0#4).toNat (1#5).toNat 16 = true ∧
    (1 : Word).toNat < 2 ^ (1#5).toNat := by decide

/-- FieldMaskCoversTheField: a bit number at each end, for each width. -/
theorem witness_bmask : 0 ≤ 8 - 1 ∧ 7 ≤ 8 - 1 ∧ 7 < 8 ∧ 15 ≤ 16 - 1 ∧ 15 < 16 := by decide

/-- The first clauses of ReadBitOfOctetDelivers, ReadFieldOfOctetDelivers, WriteFieldOfOctetReadsThenWrites and of
their word forms. -/
theorem witness_zero_count : ({ readReg8 0x1A (busy 0) with n := 0 } : ReadResult 8).n = 0 ∧
    ({ readReg16 0x0C (busy 0) with n := 0 } : ReadResult 16).n = 0 := ⟨rfl, rfl⟩

/-- AssemblerJoinsTwoOctets. -/
theorem witness_half : (busy 0).half = false := rfl

/-- ReadWordArrayFillsBuffer: a count of at least one. -/
theorem witness_count : 0 < (1#8).toNat ∧ 0 < (255#8).toNat := by decide

/-- WordWriteBackSwapsUnderLsbFirst: both ends of the bit number, both orders. -/
theorem witness_swap : 0 ≤ 15 ∧ 15 ≤ 15 ∧ (start msbFirst [0x12, 0x34] 0 0).bindOrder = .msbFirst ∧
    (start lsbFirst [0x12, 0x34] 0 0).bindOrder = .lsbFirst := by decide

/-- FieldReadThenWriteSendsTheSame, octet registers: the device answers the second read as the first. -/
theorem witness_field_write_back : validField 4 3 8 = true ∧
    ∃ t, exec (.rdbitsB 0x1A 4 3) (start msbFirst [0x69, 0, 0x69] 0 0) = .next t ∧
      t.answerAt 1 = (start msbFirst [0x69, 0, 0x69] 0 0).answerAt 1 := ⟨by decide, _, rfl, rfl⟩

/-- FieldReadThenWriteSendsTheSame, word registers. -/
theorem witness_field_write_back_word : let s := start msbFirst [0x12, 0x34, 0, 0x12, 0x34] 0 0
    validField 11 8 16 = true ∧ s.bindOrder = .msbFirst ∧
    ∃ t, exec (.rdbitsW 0x0C 11 8) s = .next t ∧ t.answerAt 1 = s.answerAt 1 ∧ t.answerAt 2 = s.answerAt 2 :=
  ⟨by decide, rfl, _, rfl, rfl, rfl⟩

/-- OctetReadWriteReadIsStable: the device answers the second read with the octet written. -/
theorem witness_read_write_read : let s := start msbFirst [0x68, 0, 0, 0, 0x68] 0 0
    ∃ t u, exec (.rdb 0x75) s = .next t ∧ exec (.wrb 0x75 0x68) t = .next u ∧ u.answerAt 1 = s.answerAt 1 :=
  ⟨_, _, rfl, rfl, rfl⟩

end Sys2Proof.Tests
end

section
/-! What a step does, by what is pending (10_state.md R25, R29; 60_exceptions.md R194; log 2). -/

namespace Sys2Proof.Machine

/-- A pending legal word: the step runs its instruction (R25). -/
theorem step_legal {s : State} {c : BitVec 64} {i : Instr} (hc : s.cmd = some c) (hd : decode c = .ok i) :
    step s = exec i s := by
  simp [step, State.pendingWord, hc, hd]

/-- A pending illegal word: the step reports it (R194). -/
theorem step_illegal {s : State} {c : BitVec 64} {e : Illegal} (hc : s.cmd = some c) (hd : decode c = .error e) :
    step s = .next (illegalCommand s) := by
  simp [step, State.pendingWord, hc, hd]

/-- Nothing pending: the host has its turn (log 2). -/
theorem step_waiting {s : State} (hc : s.cmd = none) : step s = .next s.hostTurn := by
  simp [step, State.pendingWord, hc]

theorem decodeTableWord_eq_some_iff (nbits w : Nat) (i : Instr) :
    decodeTableWord nbits w = some i ↔ decode (tableWord nbits w) = .ok i := by
  unfold decodeTableWord
  cases decode (tableWord nbits w) <;> simp

/-- With an input waiting, the host's turn is that input, which is used up. -/
theorem step_input {s : State} {x : HostInput} {rest : List HostInput} (hc : s.cmd = none)
    (hi : s.inputs = x :: rest) : step s = .next (({ s with inputs := rest } : State).applyInput x) := by
  rw [step_waiting hc, State.hostTurn, hi]

/-- Settles O5: by what is pending, and a table word is pending where it was placed. -/
theorem stepRunsTheDecodedCommand : Obligations.StepRunsTheDecodedCommand :=
  ⟨fun _ _ _ => step_legal, fun _ nbits w i h => step_legal rfl ((decodeTableWord_eq_some_iff nbits w i).1 h)⟩

end Sys2Proof.Machine
end

section
/-! The effect of an instruction: everything it does to a state, as a value of its own.  It is computed from the Bus
Binding, the answers, the draws and `DBUF[0..254]`, and then applied to the state (10_state.md R28, R31). -/

namespace Sys2Proof.Machine

/-- What a legal command does: the exchanges it makes, its calls, the IDX and RES it ends with, the value it writes
to RDATA if it writes one, the elements it stores in DBUF from entry 0 on, the last word it assembled if any, and the
free values it draws. -/
structure Effect where
  exchanges : Nat
  calls : List Call
  idx : Nat
  res : Word
  rdata : Option Word
  stored : List Word
  wacc : Option Word
  drawn : Nat

/-- The state in which a command with this effect ends. -/
def Effect.apply (e : Effect) (s : State) : State :=
  s.finished e.exchanges e.calls e.idx e.res (e.rdata.getD s.rdata) (storeFrom 0 e.stored s).dbuf
    (e.wacc.getD s.wacc) e.drawn

/-- The effect of an instruction in a state; an X-form has that of its counterpart (R170). -/
def effect (s : State) : Instr → Effect
  | .rdba a c | .xrdba _ a c _ =>
    ⟨c.toNat + 1, s.readFrame 0 a c.toNat, c.toNat, countRes c.toNat, none, (s.answersFrom 1 c.toNat).map zext16,
      none, 0⟩
  | .rdwa a c | .xrdwa _ a c _ =>
    ⟨2 * c.toNat + 1, s.readFrame 0 a (2 * c.toNat), c.toNat, countRes c.toNat, none, s.wordsFrom 1 c.toNat,
      (s.wordsFrom 1 c.toNat).getLast?, 0⟩
  | .wrba a c | .xwrba _ a c _ =>
    ⟨c.toNat + 1, s.writeFrame 0 a ((s.elements c.toNat).map loOctet), c.toNat, 1, none, [], none, 0⟩
  | .wrwa a c | .xwrwa _ a c _ =>
    ⟨2 * c.toNat + 1, s.writeFrame 0 a ((s.elements c.toNat).flatMap fun x => [hiOctet x, loOctet x]), c.toNat, 1,
      none, [], none, 0⟩
  | .rdb a | .xrdb _ a _ => ⟨2, s.readFrame 0 a 1, 1, 1, some ((s.answerAt 1).setWidth 16), [], none, 0⟩
  | .rdw a | .xrdw _ a _ => ⟨3, s.readFrame 0 a 2, 1, 1, some (s.wordAt 1), [], some (s.wordAt 1), 0⟩
  | .wrb a v | .xwrb _ a v _ => ⟨2, s.writeFrame 0 a [v], 1, 1, none, [], none, 0⟩
  | .wrw a v | .xwrw _ a v _ => ⟨3, s.writeFrame 0 a [hiOctet v, loOctet v], 1, 1, none, [], none, 0⟩
  | .rdbitB a n | .xrdbitB _ a n _ =>
    ⟨2, s.readFrame 0 a 1, 1, 1, some (zext16 (valueOr (validBit n 8) (readBit (s.answerAt 1) n) s.draws)), [], none,
      drawsOf (validBit n 8)⟩
  | .rdbitW a n | .xrdbitW _ a n _ =>
    ⟨3, s.readFrame 0 a 2, 1, 1, some (zext16 (valueOr (validBit n 16) (readBit (s.wordAt 1) n) s.draws)), [],
      some (s.wordAt 1), drawsOf (validBit n 16)⟩
  | .rdbitsB a b l | .xrdbitsB _ a b l _ =>
    ⟨2, s.readFrame 0 a 1, 1, 1,
      some (zext16 (valueOr (validField b l 8) (extractField (s.answerAt 1) b l) s.draws)), [], none,
      drawsOf (validField b l 8)⟩
  | .rdbitsW a b l | .xrdbitsW _ a b l _ =>
    ⟨3, s.readFrame 0 a 2, 1, 1, some (zext16 (valueOr (validField b l 16) (extractField (s.wordAt 1) b l) s.draws)),
      [], some (s.wordAt 1), drawsOf (validField b l 16)⟩
  | .wrbitB a n v | .xwrbitB _ a n v _ =>
    ⟨4, s.readFrame 0 a 1 ++ s.writeFrame 2 a [bitOut8 n v s], 1, 1, none, [], none, drawsOf (validBit n 8)⟩
  | .wrbitW a n v | .xwrbitW _ a n v _ =>
    ⟨6, s.readFrame 0 a 2 ++ s.writeFrame 3 a [hiOctet (bitOut16 n v s), loOctet (bitOut16 n v s)], 1, 1, none, [],
      some (s.wordAt 1), drawsOf (validBit n 16)⟩
  | .wrbitsB a b l v | .xwrbitsB _ a b l v _ =>
    ⟨4, s.readFrame 0 a 1 ++ s.writeFrame 2 a [fieldOut8 b l v s], 1, 1, none, [], none,
      drawsOf (validField b l 8 && valueFits l v)⟩
  | .wrbitsW a b l v | .xwrbitsW _ a b l v _ =>
    ⟨6, s.readFrame 0 a 2 ++ s.writeFrame 3 a [hiOctet (fieldOut16 b l v s), loOctet (fieldOut16 b l v s)], 1, 1,
      none, [], some (s.wordAt 1), drawsOf (validField b l 16 && valueFits l v)⟩

/-- Every instruction completes, in the state its effect says. -/
theorem exec_eq_apply_effect (s : State) : ∀ i : Instr, exec i s = .next ((effect s i).apply s)
  | .rdba a c | .xrdba _ a c _ => exec_rdba a c s
  | .rdwa a c | .xrdwa _ a c _ => exec_rdwa a c s
  | .wrba a c | .xwrba _ a c _ => exec_wrba a c s
  | .wrwa a c | .xwrwa _ a c _ => exec_wrwa a c s
  | .rdb a | .xrdb _ a _ => exec_rdb a s
  | .rdw a | .xrdw _ a _ => exec_rdw a s
  | .wrb a v | .xwrb _ a v _ => exec_wrb a v s
  | .wrw a v | .xwrw _ a v _ => exec_wrw a v s
  | .rdbitB a n | .xrdbitB _ a n _ => exec_rdbitB a n s
  | .rdbitW a n | .xrdbitW _ a n _ => exec_rdbitW a n s
  | .rdbitsB a b l | .xrdbitsB _ a b l _ => exec_rdbitsB a b l s
  | .rdbitsW a b l | .xrdbitsW _ a b l _ => exec_rdbitsW a b l s
  | .wrbitB a n v | .xwrbitB _ a n v _ => exec_wrbitB a n v s
  | .wrbitW a n v | .xwrbitW _ a n v _ => exec_wrbitW a n v s
  | .wrbitsB a b l v | .xwrbitsB _ a b l v _ => exec_wrbitsB a b l v s
  | .wrbitsW a b l v | .xwrbitsW _ a b l v _ => exec_wrbitsW a b l v s

/-- What a step with a legal word pending leaves. -/
theorem eq_apply_effect_of_step {s t : State} {c : BitVec 64} {i : Instr} (hc : s.cmd = some c)
    (hd : decode c = .ok i) (h : step s = .next t) : t = (effect s i).apply s := by
  rw [step_legal hc hd, exec_eq_apply_effect] at h
  exact (Host.Outcome.next.inj h).symm

/-- What a step with an illegal word pending leaves. -/
theorem eq_illegalCommand_of_step {s t : State} {c : BitVec 64} {e : Illegal} (hc : s.cmd = some c)
    (hd : decode c = .error e) (h : step s = .next t) : t = illegalCommand s := by
  rw [step_illegal hc hd] at h
  exact (Host.Outcome.next.inj h).symm

/-! ## What the effect is computed from -/

/-- `t` answers as `s` does to everything an instruction reads: the Bus Binding and the transport, the draws, and the
DBUF entries but the last (R28, R31). -/
structure SameReads (s t : State) : Prop where
  bus : SameBus s t
  draws : t.draws = s.draws
  entries : ∀ j : Fin 256, j.val ≠ 255 → t.dbufAt j = s.dbufAt j

section
variable {s t : State} (h : SameReads s t)
include h

/-- An array write, of at most 255 elements, does not reach the last entry. -/
theorem SameReads.elements (n : Nat) (hn : n ≤ 255) : t.elements n = s.elements n := by
  induction n with
  | zero => rfl
  | succ n ih =>
    rw [elements_succ _ _ (by omega), elements_succ _ _ (by omega), ih (by omega),
      h.entries _ (show n ≠ 255 by omega)]

theorem SameReads.elementsOfCount (c : BitVec 8) : t.elements c.toNat = s.elements c.toNat :=
  h.elements _ (Nat.le_of_lt_succ c.isLt)

theorem SameReads.bitOut8 (n : Nat) (v : Bool) : bitOut8 n v t = bitOut8 n v s := by
  simp only [Machine.bitOut8, h.bus.answerAt, h.draws]

theorem SameReads.bitOut16 (n : Nat) (v : Bool) : bitOut16 n v t = bitOut16 n v s := by
  simp only [Machine.bitOut16, h.bus.wordAt, h.draws]

theorem SameReads.fieldOut8 (b l : Nat) (v : Octet) : fieldOut8 b l v t = fieldOut8 b l v s := by
  simp only [Machine.fieldOut8, h.bus.answerAt, h.draws]

theorem SameReads.fieldOut16 (b l : Nat) (v : Word) : fieldOut16 b l v t = fieldOut16 b l v s := by
  simp only [Machine.fieldOut16, h.bus.wordAt, h.draws]

/-- The effect is the same in two states that agree on what an instruction reads. -/
theorem SameReads.effect : ∀ i : Instr, effect t i = effect s i
  | .rdba _ _ | .xrdba _ _ _ _ => by simp only [Machine.effect, h.bus.readFrame, h.bus.answersFrom]
  | .rdwa _ _ | .xrdwa _ _ _ _ => by simp only [Machine.effect, h.bus.readFrame, h.bus.wordsFrom]
  | .wrba _ _ | .xwrba _ _ _ _ | .wrwa _ _ | .xwrwa _ _ _ _ => by
    simp only [Machine.effect, h.bus.writeFrame, h.elementsOfCount]
  | .rdb _ | .xrdb _ _ _ => by simp only [Machine.effect, h.bus.readFrame, h.bus.answerAt]
  | .rdw _ | .xrdw _ _ _ => by simp only [Machine.effect, h.bus.readFrame, h.bus.wordAt]
  | .wrb _ _ | .xwrb _ _ _ _ | .wrw _ _ | .xwrw _ _ _ _ => by simp only [Machine.effect, h.bus.writeFrame]
  | .rdbitB _ _ | .xrdbitB _ _ _ _ | .rdbitsB _ _ _ | .xrdbitsB _ _ _ _ _ => by
    simp only [Machine.effect, h.bus.readFrame, h.bus.answerAt, h.draws]
  | .rdbitW _ _ | .xrdbitW _ _ _ _ | .rdbitsW _ _ _ | .xrdbitsW _ _ _ _ _ => by
    simp only [Machine.effect, h.bus.readFrame, h.bus.wordAt, h.draws]
  | .wrbitB _ _ _ | .xwrbitB _ _ _ _ _ => by
    simp only [Machine.effect, h.bus.readFrame, h.bus.writeFrame, h.bitOut8]
  | .wrbitW _ _ _ | .xwrbitW _ _ _ _ _ => by
    simp only [Machine.effect, h.bus.readFrame, h.bus.writeFrame, h.bus.wordAt, h.bitOut16]
  | .wrbitsB _ _ _ _ | .xwrbitsB _ _ _ _ _ _ => by
    simp only [Machine.effect, h.bus.readFrame, h.bus.writeFrame, h.fieldOut8]
  | .wrbitsW _ _ _ _ | .xwrbitsW _ _ _ _ _ _ => by
    simp only [Machine.effect, h.bus.readFrame, h.bus.writeFrame, h.bus.wordAt, h.fieldOut16]

end

/-- What `SameInfluences` asks for is more than an instruction reads. -/
theorem SameInfluences.sameReads {s t : State} (h : SameInfluences s t) : SameReads s t :=
  ⟨⟨h.binding, h.answers, h.xchgs⟩, h.draws, fun j _ => by rw [State.dbufAt, State.dbufAt, h.dbuf]⟩

/-- The last entry is nothing an instruction reads (R28). -/
theorem sameReads_setDbuf_last (s : State) (v : Word) : SameReads s (s.setDbuf 255 v) :=
  ⟨⟨⟨rfl, rfl, rfl, rfl⟩, rfl, rfl⟩, rfl, fun j hj => by rw [dbufAt_setDbuf, if_neg (Ne.symm hj)]⟩

/-! ## What the effect holds -/

/-- An array read stores at most 255 elements. -/
theorem effect_stored_length_le (s : State) (i : Instr) : (effect s i).stored.length ≤ 255 := by
  have hcount (c : BitVec 8) : c.toNat ≤ 255 := Nat.le_of_lt_succ c.isLt
  cases i <;> simp [effect, hcount]

/-- The last entry keeps its value (R28). -/
theorem dbufAt_last_apply_effect (s t : State) (i : Instr) : ((effect s i).apply t).dbufAt 255 = t.dbufAt 255 := by
  have hnone : (effect s i).stored[255]? = none := List.getElem?_eq_none (effect_stored_length_le s i)
  have h := storeFrom_dbufAt (effect s i).stored 0 t 255
  rw [if_pos (Nat.zero_le _)] at h
  exact h.trans (by rw [show (255 : Fin 256).val - 0 = 255 from rfl, hnone]; rfl)

/-- The last word assembled: word number `wordReads` of the read frame, or none (R131, R132). -/
theorem effect_wacc_getD (s : State) (i : Instr) (d : Word) :
    (effect s i).wacc.getD d = if wordReads i = 0 then d else s.wordAt (2 * wordReads i - 1) := by
  have hlast (n : Nat) : ((s.wordsFrom 1 n).getLast?).getD d = if n = 0 then d else s.wordAt (2 * n - 1) := by
    split
    next h => subst h; rfl
    next h => exact wordsFrom_last s n (Nat.pos_of_ne_zero h) d
  cases i
  case rdwa a c => exact hlast c.toNat
  case xrdwa d a c t => exact hlast c.toNat
  all_goals rfl

/-- One effect on two states that agree in the influences leaves them so, with the same STATUS (R31). -/
theorem SameInfluences.apply {s t : State} (h : SameInfluences s t) (e : Effect) :
    SameInfluences (e.apply s) (e.apply t) where
  binding := h.binding
  dbuf := storeFrom_dbuf_congr _ _ _ _ h.dbuf
  cmd := rfl
  trace := congrArg (· ++ e.calls) h.trace
  answers := congrArg (List.drop e.exchanges) h.answers
  xchgs := congrArg (· + e.exchanges) h.xchgs
  draws := congrArg (· + e.drawn) h.draws

theorem SameInfluences.illegalCommand {s t : State} (h : SameInfluences s t) :
    SameInfluences (illegalCommand s) (illegalCommand t) :=
  ⟨h.binding, h.dbuf, rfl, h.trace, h.answers, h.xchgs, h.draws⟩

/-- Settles O16: the effect is computed from the influences alone, and applying it keeps them equal. -/
theorem commandsDependOnBindingAndBufferOnly : Obligations.CommandsDependOnBindingAndBufferOnly := by
  intro s t s' t' c h hc hs ht
  have hct : t.cmd = some c := h.cmd.trans hc
  cases hd : decode c with
  | ok i =>
    rw [eq_apply_effect_of_step hc hd hs, eq_apply_effect_of_step hct hd ht, h.sameReads.effect]
    exact ⟨h.apply _, rfl, fun hr => congrArg ((effect s i).rdata.getD ·) hr⟩
  | error e =>
    rw [eq_illegalCommand_of_step hc hd hs, eq_illegalCommand_of_step hct hd ht]
    exact ⟨h.illegalCommand, rfl, id⟩

/-- Settles O17: the effect does not depend on the last entry, and stores at most 255 elements. -/
theorem lastBufferEntryIsNeverAccessed : Obligations.LastBufferEntryIsNeverAccessed := by
  intro s s' t' c v hc hs ht
  have hct : (s.setDbuf 255 v).cmd = some c := hc
  have hv : (s.setDbuf 255 v).dbufAt 255 = v := by rw [dbufAt_setDbuf]; rfl
  have hr := sameReads_setDbuf_last s v
  cases hd : decode c with
  | ok i =>
    rw [eq_apply_effect_of_step hc hd hs, eq_apply_effect_of_step hct hd ht, hr.effect]
    refine ⟨rfl, rfl, rfl, fun j hj => ?_, dbufAt_last_apply_effect s s i, ?_⟩
    · have hj' := hr.entries j hj
      exact (storeFrom_dbufAt _ 0 _ j).trans (by rw [hj']; exact (storeFrom_dbufAt _ 0 s j).symm)
    · rw [dbufAt_last_apply_effect, hv]
  | error e =>
    rw [eq_illegalCommand_of_step hc hd hs, eq_illegalCommand_of_step hct hd ht]
    exact ⟨rfl, rfl, rfl, hr.entries, rfl, hv⟩

/-- Settles O22: PHASE, the frame record, HALF and IDX by the shape of every command, WACC by its effect. -/
theorem sequencerAndAssemblerAfterACommand : Obligations.SequencerAndAssemblerAfterACommand := by
  intro s t i h
  obtain ⟨calls, idx, res, rdata, dbuf, wacc, drawn, hshape, -, hidx, -⟩ := exec_shape i s
  have hfin := Host.Outcome.next.inj (h.symm.trans hshape)
  have heff := Host.Outcome.next.inj (h.symm.trans (exec_eq_apply_effect s i))
  have hwacc : t.wacc = if wordReads i = 0 then s.wacc else s.wordAt (2 * wordReads i - 1) :=
    (congrArg State.wacc heff).trans (effect_wacc_getD s i s.wacc)
  subst hfin
  exact ⟨rfl, rfl, rfl, hidx, fun h0 => by rw [hwacc, if_pos h0], fun hpos => by rw [hwacc, if_neg (by omega)]⟩

end Sys2Proof.Machine
end

section
/-! The host's side: the register map, reset, and the Bus Binding over a step (10_state.md R22, R34, R35). -/

namespace Sys2Proof.Machine

/-! ## The register map (R35) -/

theorem hostRead_order (s : State) : s.hostRead 0x002 = if s.bindOrder = .msbFirst then 0 else 1 := by
  cases h : s.bindOrder <;> simp [State.hostRead, h, orderBit]

/-- The numbers between the registers and DBUF read zero. -/
theorem hostRead_gap (s : State) {n : Nat} (h7 : 7 < n) (h : n < 0x100) : s.hostRead n = 0 := by
  simp [State.hostRead, show n ≠ 0 by omega, show n ≠ 1 by omega, show n ≠ 2 by omega, show n ≠ 3 by omega,
    show n ≠ 4 by omega, show n ≠ 6 by omega, show n ≠ 7 by omega, h]

/-- From 0x100 on a number is that of a DBUF entry, if there is one. -/
theorem hostRead_of_ge (s : State) {n : Nat} (h : 0x100 ≤ n) :
    s.hostRead n = ((s.dbuf[n - 0x100]?).getD 0).setWidth 32 := by
  simp [State.hostRead, show n ≠ 0 by omega, show n ≠ 1 by omega, show n ≠ 2 by omega, show n ≠ 3 by omega,
    show n ≠ 4 by omega, show n ≠ 6 by omega, show n ≠ 7 by omega, h]

theorem hostRead_dbuf (s : State) (i : Fin 256) : s.hostRead (0x100 + i.val) = (s.dbufAt i).setWidth 32 := by
  simp [hostRead_of_ge, State.dbufAt]

theorem hostRead_beyond (s : State) {n : Nat} (h : 0x1FF < n) : s.hostRead n = 0 := by
  rw [hostRead_of_ge s (by omega), Vector.getElem?_eq_none (by omega)]
  rfl

/-- A number below 0x100 that is neither RTIMEOUT nor CMD ignores a write. -/
theorem hostWrite_ignored (s : State) {n : Nat} (v : BitVec 64) (h : n < 0x100) (h4 : n ≠ 0x004) (h5 : n ≠ 0x005) :
    s.hostWrite n v = s := by
  simp [State.hostWrite, h4, h5, h]

/-- From 0x100 on a write is one of a DBUF entry, if there is one. -/
theorem hostWrite_of_ge (s : State) {n : Nat} (v : BitVec 64) (h : 0x100 ≤ n) :
    s.hostWrite n v = s.setDbuf (n - 0x100) (v.setWidth 16) := by
  simp [State.hostWrite, show n ≠ 4 by omega, show n ≠ 5 by omega, h]

theorem setDbuf_of_ge (s : State) {i : Nat} (v : Word) (h : 256 ≤ i) : s.setDbuf i v = s := by
  simp [State.setDbuf, Vector.setIfInBounds_eq_of_size_le h]

/-- Settles O9, by the register map of a host read. -/
theorem hostReadsTheRegisterMap : Obligations.HostReadsTheRegisterMap := by
  intro s n rest hc hi
  refine ⟨s.hostRead n, step_input hc hi, ?_, ?_, ?order, ?_, ?_, ?_, ?_, ?_, ?entry, hostRead_gap s,
    hostRead_beyond s⟩
  case order => rintro rfl; exact hostRead_order s
  case entry => rintro i rfl; exact hostRead_dbuf s i
  all_goals rintro rfl; rfl

/-- Settles O10, by the register map of a host write. -/
theorem hostWritesTheRegisterMap : Obligations.HostWritesTheRegisterMap := by
  intro s n v rest hc hi
  refine ⟨_, step_input hc hi, ?_, ?_, ?_, hostWrite_ignored _ v, fun h => ?_⟩
  · rintro rfl; rfl
  · rintro rfl; rfl
  · rintro i rfl
    rw [State.applyInput, hostWrite_of_ge _ v (Nat.le_add_right ..), Nat.add_sub_cancel_left]
    exact ⟨(dbufAt_setDbuf ..).trans (if_pos rfl),
      fun j hj => (dbufAt_setDbuf ..).trans (if_neg fun h => hj (Fin.ext h.symm)), rfl⟩
  · exact (hostWrite_of_ge _ v (by omega)).trans (setDbuf_of_ge _ _ (by omega))

/-! ## Reset (R34) -/

/-- Settles O11: the fields of the reset state, and a line is inactive before its first SEL. -/
theorem resetLeavesTheStatedValues : Obligations.ResetLeavesTheStatedValues :=
  ⟨rfl, rfl, rfl, rfl, rfl, rfl, rfl, rfl, rfl, rfl, fun _ => rfl⟩

/-- Settles O14: STATUS is zero, no call has been made, and IDX is an unspecified octet. -/
theorem resetMeetsTheInvariant : Obligations.ResetMeetsTheInvariant where
  idle := rfl
  firstFrame := rfl
  frames := rfl
  lines _ := rfl
  reserved := by decide
  count := by decide
  illegal := by decide
  index := Nat.le_of_lt_succ (Config.idxAtReset 0).isLt

/-! ## The Bus Binding (R22) -/

theorem sameBinding_hostWrite (s : State) (n : Nat) (v : BitVec 64) : SameBinding s (s.hostWrite n v) := by
  unfold State.hostWrite
  split_ifs <;> exact ⟨rfl, rfl, rfl, rfl⟩

theorem sameBinding_applyReset (s : State) : SameBinding State.reset s.applyReset := ⟨rfl, rfl, rfl, rfl⟩

theorem sameBinding_apply (e : Effect) (s : State) : SameBinding s (e.apply s) := ⟨rfl, rfl, rfl, rfl⟩

/-- Settles O15: of everything a step can be, only the reset input touches the binding. -/
theorem bindingIsImmutable : Obligations.BindingIsImmutable := by
  refine ⟨⟨rfl, rfl, rfl, rfl⟩, fun s t h => ?_⟩
  cases hc : s.cmd with
  | some c =>
    left
    cases hd : decode c with
    | ok i => rw [eq_apply_effect_of_step hc hd h]; exact sameBinding_apply _ s
    | error e => rw [eq_illegalCommand_of_step hc hd h]; exact ⟨rfl, rfl, rfl, rfl⟩
  | none =>
    cases hi : s.inputs with
    | nil =>
      rw [step_waiting hc, State.hostTurn, hi] at h
      obtain rfl := Host.Outcome.next.inj h
      exact .inl ⟨rfl, rfl, rfl, rfl⟩
    | cons x rest =>
      obtain rfl := Host.Outcome.next.inj ((step_input hc hi).symm.trans h)
      cases x with
      | read n => exact .inl ⟨rfl, rfl, rfl, rfl⟩
      | write n v => exact .inl (sameBinding_hostWrite _ n v)
      | reset => exact .inr ⟨sameBinding_applyReset _, rfl, rest, rfl⟩

end Sys2Proof.Machine
end

section
/-! The wire view of the address octet and of a word: a read OR-s bit 7 into the address, and a word is two octets
(20_memory.md R52, R54, R55, R56). -/

namespace Sys2Proof.Machine

/-! ## The read flag (R52) -/

/-- A read frame sets bit 7 of the address, set or not. -/
theorem readFrame_or_readFlag (s : State) (j : Nat) (a : Octet) (n : Nat) :
    s.readFrame j (a ||| 0x80) n = s.readFrame j a n := by
  rw [State.readFrame, BitVec.or_assoc, BitVec.or_self]
  rfl

/-- Instructions of equal effect are the same command. -/
theorem exec_eq_of_effect_eq {s : State} {i j : Instr} (h : effect s i = effect s j) : exec i s = exec j s := by
  rw [exec_eq_apply_effect, exec_eq_apply_effect, h]

/-- Settles O43: the effect of a simple read has the address in its read frame only. -/
theorem readFlagIsOredIn : Obligations.ReadFlagIsOredIn := by
  intro s a count b l
  refine ⟨?_, ?_, ?_, ?_, ?_, ?_, ?_, ?_⟩ <;>
    exact exec_eq_of_effect_eq (by simp only [effect, readFrame_or_readFlag])

/-! ## Two octets and a word (R56) -/

/-- The elements of the effect stand in DBUF from entry 0 on, and every other entry is unchanged. -/
theorem dbufAt_apply (e : Effect) (s : State) (j : Fin 256) :
    (e.apply s).dbufAt j = (e.stored[j.val]?).getD (s.dbufAt j) :=
  (storeFrom_dbufAt e.stored 0 s j).trans (if_pos (Nat.zero_le _))

@[simp] theorem loOctet_zext16 (o : Octet) : loOctet (zext16 o) = o := by
  rw [loOctet, zext16, BitVec.extractLsb'_setWidth_of_le (by decide), BitVec.extractLsb'_eq_self]

/-- Writing DBUF changes nothing the bus sees. -/
theorem sameBus_setDbuf (s : State) (i : Nat) (x : Word) : SameBus s (s.setDbuf i x) := ⟨⟨rfl, rfl, rfl, rfl⟩, rfl, rfl⟩

@[simp] theorem writeFrame_setDbuf (i : Nat) (x : Word) (s : State) (j : Nat) (a : Octet) (v : List Octet) :
    (s.setDbuf i x).writeFrame j a v = s.writeFrame j a v :=
  (sameBus_setDbuf s i x).writeFrame j a v

/-- The one element of an array write whose entry 0 was just written. -/
theorem elements_one_setDbuf (s : State) (x : Word) : (s.setDbuf 0 x).elements 1 = [x] := by
  rw [elements_succ _ 0 (by decide), elements_zero, dbufAt_setDbuf]
  rfl

/-- The two elements of an array write whose entries 0 and 1 were just written. -/
theorem elements_two_setDbuf (s : State) (x y : Word) : ((s.setDbuf 0 x).setDbuf 1 y).elements 2 = [x, y] := by
  rw [elements_succ _ 1 (by decide), elements_succ _ 0 (by decide), elements_zero]
  simp only [dbufAt_setDbuf]
  rfl

/-- WRWA of one word sends its two octets, high first (R55). -/
theorem effect_wrwa_one_calls (s : State) (a : Octet) (x : Word) :
    (effect (s.setDbuf 0 x) (.wrwa a 1)).calls = s.writeFrame 0 a [hiOctet x, loOctet x] := by
  simp [effect, elements_one_setDbuf]

/-- WRBA of two octets sends the low octets of entries 0 and 1 (R133). -/
theorem effect_wrba_two_calls (s : State) (a o1 o2 : Octet) :
    (effect ((s.setDbuf 0 (zext16 o1)).setDbuf 1 (zext16 o2)) (.wrba a 2)).calls = s.writeFrame 0 a [o1, o2] := by
  simp [effect, elements_two_setDbuf]

/-- Settles O44: RDBA of two and RDWA of one make the one read frame of two octets, and WRWA of a word and WRBA of
its octets the one write frame of them. -/
theorem wordsAreTwoOctetsOnTheWire : Obligations.WordsAreTwoOctetsOnTheWire := by
  intro s a v
  have hfirst : ((effect s (.rdba a 2)).apply s).dbufAt 0 = zext16 (s.answerAt 1) := dbufAt_apply _ s 0
  have hsecond : ((effect s (.rdba a 2)).apply s).dbufAt 1 = zext16 (s.answerAt 2) := dbufAt_apply _ s 1
  have hword : ((effect s (.rdwa a 1)).apply s).dbufAt 0 = s.wordAt 1 := dbufAt_apply _ s 0
  refine ⟨⟨_, _, exec_eq_apply_effect s _, exec_eq_apply_effect s _, rfl, hfirst, hsecond, ?join⟩,
    ⟨_, _, exec_eq_apply_effect _ _, exec_eq_apply_effect _ _, ?write⟩⟩
  case join =>
    rw [hword, hfirst, hsecond]
    exact (congrArg₂ (joinOctets s.bindOrder) (loOctet_zext16 _) (loOctet_zext16 _)).symm
  case write =>
    exact congrArg (s.trace ++ ·)
      ((effect_wrwa_one_calls s a v).trans (effect_wrba_two_calls s a (hiOctet v) (loOctet v)).symm)

end Sys2Proof.Machine
end

section
/-! Decoding what was encoded: the word of a well-formed instruction meets its format and holds its operands
(30_encoding.md R81, R82, R89). -/

namespace Sys2Proof

/-- Bits 47:16, shifted down to `mid`, are zero wherever the format must be zero: what `decode_pack` asks of them. -/
def Format.Clears (fmt : Format) (w : Bool) (mid : BitVec 32) : Prop :=
  ∀ r ∈ fmt.zeroRanges w, 16 ≤ r.2 ∧ r.2 ≤ r.1 ∧ r.1 < 48 ∧
    ∀ k, r.2 - 16 ≤ k → k ≤ r.1 - 16 → mid.getLsbD k = false

section
variable (w : Bool) (n b l : Nat) (f : Bool) (o : Octet) (v : Word)

theorem clears_midA (c : BitVec 8) : Format.A.Clears w (midA c) := by
  grind [Format.Clears, Format.zeroRanges, midA_getLsbD]

theorem clears_midR1 : Format.R1.Clears w midR1 := by
  grind [Format.Clears, Format.zeroRanges, midR1_getLsbD]

theorem clears_midW1B : Format.W1.Clears false (midW1B o) := by
  grind [Format.Clears, Format.zeroRanges, midW1B_getLsbD]

theorem clears_midW1W : Format.W1.Clears true (midW1W v) := by
  grind [Format.Clears, Format.zeroRanges, midW1W_getLsbD]

theorem clears_midB : Format.B.Clears w (midB n) := by
  grind [Format.Clears, Format.zeroRanges, midB_getLsbD]

theorem clears_midBW : Format.BW.Clears w (midBW n f) := by
  grind [Format.Clears, Format.zeroRanges, midBW_getLsbD]

theorem clears_midF : Format.F.Clears w (midF b l) := by
  grind [Format.Clears, Format.zeroRanges, midF_getLsbD]

theorem clears_midFWB : Format.FW.Clears false (midFWB b l o) := by
  grind [Format.Clears, Format.zeroRanges, midFWB_getLsbD]

theorem clears_midFWW : Format.FW.Clears true (midFWW b l v) := by
  grind [Format.Clears, Format.zeroRanges, midFWW_getLsbD]

end

/-- A packed word that meets its format decodes to the instruction whose operands its fields hold. -/
theorem decode_pack_eq {op : Op} {w s : Bool} {a d t : Octet} {mid : BitVec 32} {i : Instr}
    (hmid : op.format.Clears w mid) (hs : s = false → d = 0#8 ∧ t = 0#8)
    (hi : instrOf op w s (pack op w s a mid d t) = i) : decode (pack op w s a mid d t) = .ok i :=
  (decode_pack op w s a d t mid hs hmid).trans (congrArg _ hi)

theorem fitsBitPos_iff (n : Nat) : fitsBitPos n = true ↔ n < 16 := decide_eq_true_iff

theorem fitsLength_iff (n : Nat) : fitsLength n = true ↔ n < 32 := decide_eq_true_iff

/-- By the form of bits 47:16: each meets its format, and its fields read back the operands. -/
theorem decode_encode (i : Instr) (hi : i.wellFormed = true) : decode (encode i) = .ok i := by
  cases i <;> simp only [Instr.wellFormed, Bool.and_eq_true, fitsBitPos_iff, fitsLength_iff] at hi
  case rdba | rdwa | wrba | wrwa | xrdba | xrdwa | xwrba | xwrwa =>
    exact decode_pack_eq (clears_midA _ _) (by simp) (by simp [instrOf])
  case rdb | rdw | xrdb | xrdw =>
    exact decode_pack_eq (clears_midR1 _) (by simp) (by simp [instrOf])
  case wrb | xwrb =>
    exact decode_pack_eq (clears_midW1B _) (by simp) (by simp [instrOf])
  case wrw | xwrw =>
    exact decode_pack_eq (clears_midW1W _) (by simp) (by simp [instrOf])
  case rdbitB | rdbitW | xrdbitB | xrdbitW =>
    exact decode_pack_eq (clears_midB _ _) (by simp) (by simp [instrOf, fieldBitPos_midB, hi])
  case wrbitB | wrbitW | xwrbitB | xwrbitW =>
    exact decode_pack_eq (clears_midBW _ _ _) (by simp) (by simp [instrOf, fieldBitPos_midBW, hi])
  case rdbitsB | rdbitsW | xrdbitsB | xrdbitsW =>
    exact decode_pack_eq (clears_midF _ _ _) (by simp) (by simp [instrOf, fieldBitPos_midF, fieldLength_midF, hi])
  case wrbitsB | xwrbitsB =>
    exact decode_pack_eq (clears_midFWB _ _ _) (by simp)
      (by simp [instrOf, fieldBitPos_midFWB, fieldLength_midFWB, hi])
  case wrbitsW | xwrbitsW =>
    exact decode_pack_eq (clears_midFWW _ _ _) (by simp)
      (by simp [instrOf, fieldBitPos_midFWW, fieldLength_midFWW, hi])

/-- Settles O1: by the nine forms of bits 47:16. -/
theorem decodeOfEncodeIsIdentity : Obligations.DecodeOfEncodeIsIdentity := decode_encode

end Sys2Proof
end

section
/-! Encoding what was decoded: a legal word is made of its fields and zeros, and the encoder places the same fields
(30_encoding.md R81, R82, R86, R89). -/

namespace Sys2Proof

/-! ## The word is its fields -/

/-- A single bit, as a field. -/
theorem ofBool_getLsbD {n : Nat} (c : BitVec n) (i : Nat) : BitVec.ofBool (c.getLsbD i) = c.extractLsb' i 1 :=
  BitVec.eq_of_getLsbD_eq fun j hj => by
    obtain rfl : j = 0 := by omega
    simp

/-- A field is zero exactly when each of its bits is. -/
theorem extractLsb'_eq_zero_iff {m : Nat} (c : BitVec m) (lo n : Nat) :
    c.extractLsb' lo n = 0 ↔ ∀ i, i < n → c.getLsbD (lo + i) = false := by
  rw [BitVec.eq_of_getLsbD_eq_iff]
  refine forall₂_congr fun i hi => ?_
  simp [hi]

theorem ofNat_fieldBitPos (c : BitVec 64) : BitVec.ofNat 4 (fieldBitPos c) = c.extractLsb' 16 4 := by
  rw [fieldBitPos, BitVec.ofNat_toNat, BitVec.setWidth_eq]

theorem ofNat_fieldLength (c : BitVec 64) : BitVec.ofNat 5 (fieldLength c) = c.extractLsb' 24 5 := by
  rw [fieldLength, BitVec.ofNat_toNat, BitVec.setWidth_eq]

theorem rangeZero_iff (c : BitVec 64) (r : Nat × Nat) :
    rangeZero c r = true ↔ c.extractLsb' r.2 (r.1 - r.2 + 1) = 0 := by
  rw [rangeZero, beq_iff_eq]

/-- A word whose bits 7:6 are zero is packed from its fields (R81). -/
theorem pack_fields {op : Op} {c : BitVec 64} (hop : fieldOp c = op.code) (h : rangeZero c (7, 6) = true) :
    pack op (fieldW c) (fieldS c) (fieldAddr c) (c.extractLsb' 16 32) (fieldDevAddr c) (fieldTimeout c) = c := by
  have h76 : c.extractLsb' 6 2 = 0#2 := (rangeZero_iff c (7, 6)).1 h
  rw [pack, ← hop, ← h76]
  simp only [fieldW, fieldS, fieldAddr, fieldDevAddr, fieldTimeout, fieldOp, ofBool_getLsbD,
    BitVec.extractLsb'_append_extractLsb'_eq_extractLsb']
  exact BitVec.extractLsb'_eq_self

/-! ## Bits 47:16 of a word whose must-be-zero bits are zero (R82) -/

section
variable {c : BitVec 64}

theorem midA_fields (h : c.extractLsb' 24 24 = 0#24) : midA (fieldCount c) = c.extractLsb' 16 32 := by
  rw [midA, ← h]
  simp only [fieldCount, BitVec.extractLsb'_append_extractLsb'_eq_extractLsb']

theorem midR1_fields (h : c.extractLsb' 16 32 = 0#32) : midR1 = c.extractLsb' 16 32 := h.symm

theorem midW1B_fields (hhi : c.extractLsb' 40 8 = 0#8) (hlo : c.extractLsb' 16 16 = 0#16) :
    midW1B (fieldValueB c) = c.extractLsb' 16 32 := by
  rw [midW1B, ← hhi, ← hlo]
  simp only [fieldValueB, BitVec.extractLsb'_append_extractLsb'_eq_extractLsb']

theorem midW1W_fields (h : c.extractLsb' 16 16 = 0#16) : midW1W (fieldValueW c) = c.extractLsb' 16 32 := by
  rw [midW1W, ← h]
  simp only [fieldValueW, BitVec.extractLsb'_append_extractLsb'_eq_extractLsb']

theorem midB_fields (h : c.extractLsb' 20 28 = 0#28) : midB (fieldBitPos c) = c.extractLsb' 16 32 := by
  rw [midB, ← h]
  simp only [ofNat_fieldBitPos, BitVec.extractLsb'_append_extractLsb'_eq_extractLsb']

theorem midBW_fields (hhi : c.extractLsb' 33 15 = 0#15) (hlo : c.extractLsb' 20 12 = 0#12) :
    midBW (fieldBitPos c) (fieldBval c) = c.extractLsb' 16 32 := by
  rw [midBW, ← hhi, ← hlo]
  simp only [ofNat_fieldBitPos, fieldBval, ofBool_getLsbD, BitVec.extractLsb'_append_extractLsb'_eq_extractLsb']

theorem midF_fields (hhi : c.extractLsb' 29 19 = 0#19) (hlo : c.extractLsb' 20 4 = 0#4) :
    midF (fieldBitPos c) (fieldLength c) = c.extractLsb' 16 32 := by
  rw [midF, ← hhi, ← hlo]
  simp only [ofNat_fieldBitPos, ofNat_fieldLength, BitVec.extractLsb'_append_extractLsb'_eq_extractLsb']

theorem midFWB_fields (hhi : c.extractLsb' 40 8 = 0#8) (hmid : c.extractLsb' 29 3 = 0#3)
    (hlo : c.extractLsb' 20 4 = 0#4) :
    midFWB (fieldBitPos c) (fieldLength c) (fieldValueB c) = c.extractLsb' 16 32 := by
  rw [midFWB, ← hhi, ← hmid, ← hlo]
  simp only [ofNat_fieldBitPos, ofNat_fieldLength, fieldValueB,
    BitVec.extractLsb'_append_extractLsb'_eq_extractLsb']

theorem midFWW_fields (hmid : c.extractLsb' 29 3 = 0#3) (hlo : c.extractLsb' 20 4 = 0#4) :
    midFWW (fieldBitPos c) (fieldLength c) (fieldValueW c) = c.extractLsb' 16 32 := by
  rw [midFWW, ← hmid, ← hlo]
  simp only [ofNat_fieldBitPos, ofNat_fieldLength, fieldValueW,
    BitVec.extractLsb'_append_extractLsb'_eq_extractLsb']

end

/-- What the encoder places in bits 47:16 for the fields of a word (R82). -/
def Format.midOf (w : Bool) (c : BitVec 64) : Format → BitVec 32
  | .A => midA (fieldCount c)
  | .R1 => midR1
  | .W1 => if w then midW1W (fieldValueW c) else midW1B (fieldValueB c)
  | .B => midB (fieldBitPos c)
  | .BW => midBW (fieldBitPos c) (fieldBval c)
  | .F => midF (fieldBitPos c) (fieldLength c)
  | .FW => if w then midFWW (fieldBitPos c) (fieldLength c) (fieldValueW c)
      else midFWB (fieldBitPos c) (fieldLength c) (fieldValueB c)

/-- Where the format's must-be-zero bits are zero, bits 47:16 are what the encoder places there. -/
theorem midOf_eq {fmt : Format} {w : Bool} {c : BitVec 64}
    (h : ∀ r ∈ fmt.zeroRanges w, rangeZero c r = true) : fmt.midOf w c = c.extractLsb' 16 32 := by
  cases fmt <;> cases w <;>
    simp only [Format.zeroRanges, List.forall_mem_cons, List.not_mem_nil, false_implies, implies_true, and_true,
      if_true, if_false, Bool.false_eq_true, rangeZero_iff] at h
  case A.false | A.true => exact midA_fields h
  case R1.false | R1.true => exact midR1_fields h
  case W1.false => exact midW1B_fields h.1 h.2
  case W1.true => exact midW1W_fields h
  case B.false | B.true => exact midB_fields h
  case BW.false | BW.true => exact midBW_fields h.1 h.2
  case F.false | F.true => exact midF_fields h.1 h.2
  case FW.false =>
    obtain ⟨hhi, hmid, hlo⟩ := h
    exact midFWB_fields hhi hmid hlo
  case FW.true => exact midFWW_fields h.1 h.2

/-! ## The encoding of the decoded instruction -/

/-- The instruction of a word has operands that fit: each is a field of it (R86). -/
theorem wellFormed_instrOf (op : Op) (w s : Bool) (c : BitVec 64) : (instrOf op w s c).wellFormed = true := by
  have hb : fitsBitPos (fieldBitPos c) = true := (fitsBitPos_iff _).2 (c.extractLsb' 16 4).isLt
  have hl : fitsLength (fieldLength c) = true := (fitsLength_iff _).2 (c.extractLsb' 24 5).isLt
  cases op <;> cases w <;> cases s <;> simp [instrOf, Instr.wellFormed, hb, hl]

/-- The encoder packs the fields the decoder read; with S = 0 there are none in bits 63:48 (R81, R82). -/
theorem encode_instrOf (op : Op) (w s : Bool) (c : BitVec 64) :
    encode (instrOf op w s c) = pack op w s (fieldAddr c) (op.format.midOf w c)
      (if s then fieldDevAddr c else 0) (if s then fieldTimeout c else 0) := by
  cases op <;> cases w <;> cases s <;> rfl

/-- The must-be-zero ranges of a word, taken apart (R87). -/
theorem forall_mem_zeroRanges (fmt : Format) (w s : Bool) (p : Nat × Nat → Prop) :
    (∀ r ∈ zeroRanges fmt w s, p r) ↔ p (7, 6) ∧ (s = false → p (63, 48)) ∧ ∀ r ∈ fmt.zeroRanges w, p r := by
  cases s <;> simp [zeroRanges]

/-- With bits 63:48 zero, so are DEVADDR and TIMEOUT (R81). -/
theorem shim_fields_zero {c : BitVec 64} (h : rangeZero c (63, 48) = true) :
    fieldDevAddr c = 0 ∧ fieldTimeout c = 0 := by
  rw [rangeZero_iff, extractLsb'_eq_zero_iff] at h
  exact ⟨(extractLsb'_eq_zero_iff c 48 8).2 fun i hi => h i (by omega),
    (extractLsb'_eq_zero_iff c 56 8).2 fun i hi => by rw [← h (8 + i) (by omega), ← Nat.add_assoc]⟩

/-- A legal word is packed from its fields, and so is the encoding of its instruction. -/
theorem encode_decode {c : BitVec 64} {i : Instr} (h : decode c = .ok i) : encode i = c := by
  obtain ⟨op, hop, hz, rfl⟩ := (decode_ok_iff c i).1 h
  obtain ⟨h76, hshim, hmid⟩ := (forall_mem_zeroRanges _ _ _ _).1 hz
  rw [encode_instrOf, midOf_eq hmid]
  refine Eq.trans ?_ (pack_fields (code_of_opOf _ _ hop) h76)
  cases hs : fieldS c with
  | true => rfl
  | false =>
    obtain ⟨hd, ht⟩ := shim_fields_zero (hshim hs)
    rw [hd, ht]
    rfl

/-- Settles O2: the fields the decoder read are placed again, and every other bit is zero. -/
theorem encodeOfDecodeIsIdentity : Obligations.EncodeOfDecodeIsIdentity := by
  intro c i h
  refine ⟨?_, encode_decode h⟩
  obtain ⟨op, -, -, rfl⟩ := (decode_ok_iff c i).1 h
  exact wellFormed_instrOf op _ _ c

end Sys2Proof
end

section
/-! The rows of the opcode table, and the words each of them matches (30_encoding.md R83, R87, R90). -/

namespace Sys2Proof

/-! ## A row, from its operation, W and S -/

/-- The mask of a range of bits. -/
def rangeMask (r : Nat × Nat) : BitVec 64 := (BitVec.allOnes (r.1 - r.2 + 1)).setWidth 64 <<< r.2

/-- The mask of OP, W, S (bits 5:0) and must-be-zero ranges. -/
def maskOf : List (Nat × Nat) → BitVec 64
  | [] => rangeMask (5, 0)
  | r :: rs => maskOf rs ||| rangeMask r

/-- The row of an operation with its W and S bits: its mask covers OP, W, S and the must-be-zero bits, and the pattern
has zeros there and OP, W, S as they are. -/
def rowOf (op : Op) (w s : Bool) : Row :=
  ⟨(instrOf op w s 0).mnemonic, pack op w s 0 0 0 0, maskOf (zeroRanges op.format w s)⟩

/-- The table is the rows by S, operation and W (R90). -/
theorem opcodeTable_eq : opcodeTable = [false, true].flatMap fun s =>
    [Op.rda, .wra, .rd1, .wr1, .rdbit, .rdbits, .wrbit, .wrbits].flatMap fun op =>
      [false, true].map fun w => rowOf op w s := by decide

/-- The table has one row for each operation, W and S, and no other (R83, R90). -/
theorem mem_opcodeTable_iff (r : Row) : r ∈ opcodeTable ↔ ∃ op w s, r = rowOf op w s := by
  rw [opcodeTable_eq]
  constructor
  · simp only [List.mem_flatMap, List.mem_map]
    rintro ⟨s, -, op, -, w, -, rfl⟩
    exact ⟨op, w, s, rfl⟩
  · rintro ⟨op, w, s, rfl⟩
    simp only [List.mem_flatMap, List.mem_map]
    exact ⟨s, by cases s <;> decide, op, by cases op <;> decide, w, by cases w <;> decide, rfl⟩

/-! ## The words a row matches -/

theorem rangeMask_getLsbD (r : Nat × Nat) {i : Nat} (hi : i < 64) :
    (rangeMask r).getLsbD i = decide (r.2 ≤ i ∧ i - r.2 < r.1 - r.2 + 1) := by
  grind [rangeMask]

/-- Masking a range gives zero exactly when its bits are zero. -/
theorem and_rangeMask_eq_zero_iff (c : BitVec 64) (r : Nat × Nat) :
    c &&& rangeMask r = 0 ↔ rangeZero c r = true := by
  rw [rangeZero_iff, extractLsb'_eq_zero_iff, BitVec.eq_of_getLsbD_eq_iff]
  grind [rangeMask_getLsbD]

/-- A mask in two parts, of which the pattern lies in the first. -/
theorem and_or_eq_iff {n : Nat} {c p m r : BitVec n} (hm : p &&& m = p) (hr : p &&& r = 0) :
    c &&& (m ||| r) = p ↔ c &&& m = p ∧ c &&& r = 0 := by
  constructor
  · rintro rfl
    have hleft : c &&& (m ||| r) &&& m = c &&& m := by grind
    have hright : c &&& (m ||| r) &&& r = c &&& r := by grind
    exact ⟨hleft ▸ hm, hright ▸ hr⟩
  · rintro ⟨h1, h2⟩
    rw [BitVec.and_or_distrib_left, h1, h2]
    exact BitVec.or_zero

/-- Matching a pattern under a mask, range by range. -/
theorem and_maskOf_eq_iff {p : BitVec 64} (hp : p &&& rangeMask (5, 0) = p) (rs : List (Nat × Nat))
    (hrs : ∀ r ∈ rs, rangeZero p r = true) (c : BitVec 64) :
    c &&& maskOf rs = p ↔ c &&& rangeMask (5, 0) = p ∧ ∀ r ∈ rs, rangeZero c r = true := by
  induction rs generalizing c with
  | nil => simp [maskOf]
  | cons r rs ih =>
    obtain ⟨hr, hrest⟩ := List.forall_mem_cons.1 hrs
    rw [maskOf, and_or_eq_iff ((ih hrest p).2 ⟨hp, hrest⟩) ((and_rangeMask_eq_zero_iff p r).2 hr), ih hrest,
      and_rangeMask_eq_zero_iff, List.forall_mem_cons]
    tauto

/-- Bits 5:0 of a word are those of the pattern exactly when OP, W and S are. -/
theorem and_lowRange_eq_pack_iff (c : BitVec 64) (op : Op) (w s : Bool) :
    c &&& rangeMask (5, 0) = pack op w s 0 0 0 0 ↔ fieldOp c = op.code ∧ fieldW c = w ∧ fieldS c = s := by
  have hop : fieldOp (c &&& rangeMask (5, 0)) = fieldOp c := by
    rw [fieldOp, fieldOp, BitVec.extractLsb'_and, show (rangeMask (5, 0)).extractLsb' 0 4 = BitVec.allOnes 4 by decide,
      BitVec.and_allOnes]
  have hw : fieldW (c &&& rangeMask (5, 0)) = fieldW c := by
    rw [fieldW, fieldW, BitVec.getLsbD_and, show (rangeMask (5, 0)).getLsbD 4 = true by decide, Bool.and_true]
  have hs : fieldS (c &&& rangeMask (5, 0)) = fieldS c := by
    rw [fieldS, fieldS, BitVec.getLsbD_and, show (rangeMask (5, 0)).getLsbD 5 = true by decide, Bool.and_true]
  constructor
  · intro h
    rw [← hop, ← hw, ← hs, h]
    exact ⟨fieldOp_pack .., fieldW_pack .., fieldS_pack ..⟩
  · rintro ⟨ho, rfl, rfl⟩
    apply BitVec.eq_of_getLsbD_eq
    intro i hi
    rw [pack_getLsbD, BitVec.getLsbD_and, rangeMask_getLsbD _ hi, ← ho, fieldOp, fieldW, fieldS]
    grind

/-- The pattern of a row has its must-be-zero bits zero. -/
theorem rangeZero_pattern (op : Op) (w s : Bool) :
    ∀ r ∈ zeroRanges op.format w s, rangeZero (pack op w s 0 0 0 0) r = true := by
  cases op <;> cases w <;> cases s <;> decide

/-- A word matches a row exactly when it has the row's OP, W and S, and zeros where they must be. -/
theorem matches_rowOf_iff (c : BitVec 64) (op : Op) (w s : Bool) :
    c &&& (rowOf op w s).mask = (rowOf op w s).pattern ↔
      (fieldOp c = op.code ∧ fieldW c = w ∧ fieldS c = s) ∧
        ∀ r ∈ zeroRanges op.format w s, rangeZero c r = true := by
  have hp : pack op w s 0 0 0 0 &&& rangeMask (5, 0) = pack op w s 0 0 0 0 :=
    (and_lowRange_eq_pack_iff _ op w s).2 ⟨fieldOp_pack .., fieldW_pack .., fieldS_pack ..⟩
  rw [← and_lowRange_eq_pack_iff]
  exact and_maskOf_eq_iff hp _ (rangeZero_pattern op w s) c

theorem opOf_eq_some_iff (v : BitVec 4) (op : Op) : opOf v = some op ↔ v = op.code :=
  ⟨code_of_opOf v op, fun h => h ▸ opOf_code op⟩

/-- Two rows that match one word are the same row. -/
theorem row_eq_of_matches {c : BitVec 64} {r r' : Row} (hr : r ∈ opcodeTable) (hr' : r' ∈ opcodeTable)
    (h : c &&& r.mask = r.pattern) (h' : c &&& r'.mask = r'.pattern) : r = r' := by
  obtain ⟨op, w, s, rfl⟩ := (mem_opcodeTable_iff r).1 hr
  obtain ⟨op', w', s', rfl⟩ := (mem_opcodeTable_iff r').1 hr'
  obtain ⟨⟨hop, rfl, rfl⟩, -⟩ := (matches_rowOf_iff c op w s).1 h
  obtain ⟨⟨hop', rfl, rfl⟩, -⟩ := (matches_rowOf_iff c op' w' s').1 h'
  have hopEq : op = op' := Option.some.inj ((opOf_code op).symm.trans (hop ▸ hop' ▸ opOf_code op'))
  rw [hopEq]

theorem mnemonic_instrOf (op : Op) (w s : Bool) (c : BitVec 64) :
    (instrOf op w s c).mnemonic = (rowOf op w s).mnemonic := by
  cases op <;> cases w <;> cases s <;> rfl

/-- A word decodes exactly to the instruction of the row it matches (R87, R90). -/
theorem decode_ok_iff_row (c : BitVec 64) (i : Instr) :
    decode c = .ok i ↔ ∃ op w s, c &&& (rowOf op w s).mask = (rowOf op w s).pattern ∧ i = instrOf op w s c := by
  simp only [decode_ok_iff, matches_rowOf_iff, opOf_eq_some_iff]
  constructor
  · rintro ⟨op, hop, hz, hi⟩
    exact ⟨op, fieldW c, fieldS c, ⟨⟨hop, rfl, rfl⟩, hz⟩, hi⟩
  · rintro ⟨op, _, _, ⟨⟨hop, rfl, rfl⟩, hz⟩, hi⟩
    exact ⟨op, hop, hz, hi⟩

/-! ## Legality -/

theorem opOf_bounds {v : BitVec 4} {op : Op} (h : opOf v = some op) : 1 ≤ v.toNat ∧ v.toNat ≤ 8 := by
  rw [code_of_opOf v op h]
  cases op <;> decide

/-- A word is legal exactly when OP is 1 to 8 and every bit that must be zero is (R87). -/
theorem legal_iff_fields (c : BitVec 64) :
    (∃ i, decode c = .ok i) ↔ ∃ op, opOf (fieldOp c) = some op ∧ 1 ≤ (fieldOp c).toNat ∧ (fieldOp c).toNat ≤ 8 ∧
      c.extractLsb' 6 2 = 0 ∧ (fieldS c = false → c.extractLsb' 48 16 = 0) ∧
        ∀ r ∈ op.format.zeroRanges (fieldW c), c.extractLsb' r.2 (r.1 - r.2 + 1) = 0 := by
  simp only [decode_ok_iff, forall_mem_zeroRanges, rangeZero_iff]
  constructor
  · rintro ⟨i, op, hop, hz, -⟩
    obtain ⟨hlo, hhi⟩ := opOf_bounds hop
    exact ⟨op, hop, hlo, hhi, hz⟩
  · rintro ⟨op, hop, -, -, hz⟩
    exact ⟨_, op, hop, hz, rfl⟩

/-- A word is legal exactly when it matches a row of the table (R87). -/
theorem legal_iff_row (c : BitVec 64) :
    (∃ i, decode c = .ok i) ↔ ∃ r ∈ opcodeTable, c &&& r.mask = r.pattern := by
  simp only [decode_ok_iff_row, mem_opcodeTable_iff]
  constructor
  · rintro ⟨_, op, w, s, h, -⟩
    exact ⟨_, ⟨op, w, s, rfl⟩, h⟩
  · rintro ⟨_, ⟨op, w, s, rfl⟩, h⟩
    exact ⟨_, op, w, s, h, rfl⟩

/-- The row a legal word matches has the mnemonic of its instruction (R83, R90). -/
theorem exists_row_of_decode {c : BitVec 64} {i : Instr} (h : decode c = .ok i) :
    ∃ r ∈ opcodeTable, c &&& r.mask = r.pattern ∧ r.mnemonic = i.mnemonic := by
  obtain ⟨op, w, s, hmatch, rfl⟩ := (decode_ok_iff_row c i).1 h
  exact ⟨rowOf op w s, (mem_opcodeTable_iff _).2 ⟨op, w, s, rfl⟩, hmatch, (mnemonic_instrOf op w s c).symm⟩

/-- Settles O3: the rows are those of the operations with W and S, and a row matches the words that have its OP, W and
S and zeros where its format must have them. -/
theorem legalWordsMatchExactlyOneRow : Obligations.LegalWordsMatchExactlyOneRow := fun c =>
  ⟨legal_iff_fields c, legal_iff_row c, fun _ hr _ hr' => row_eq_of_matches hr hr', fun _ => exists_row_of_decode⟩

end Sys2Proof
end

section
/-! The calls and the answers of a command, counted: each count is fixed by the number of frames and of payload octets
(40_transport_framing.md R112, R113, R116, R120, R121). -/

namespace Sys2Proof.Machine

/-! ## Counts over one frame -/

@[simp] theorem frameCalls_length (s : State) (j : Nat) (a : Octet) (outs : List Octet) :
    (s.frameCalls j a outs).length = outs.length + 5 := by
  simp [State.frameCalls]

/-- Only the exchanges of a frame are exchanges: one for the address and one for each payload octet (R120). -/
theorem countP_isXchg_frameCalls (s : State) (j : Nat) (a : Octet) (outs : List Octet) :
    (s.frameCalls j a outs).countP Call.isXchg = outs.length + 1 := by
  have hx := countP_exchanges s Call.isXchg true (fun _ _ => rfl) (a :: outs) j
  simpa [State.frameCalls, List.countP_cons, Call.isXchg] using hx

/-- One SEL in a frame (R113). -/
theorem countP_isSel_frameCalls (s : State) (j : Nat) (a : Octet) (outs : List Octet) :
    (s.frameCalls j a outs).countP Call.isSel = 1 := by
  have hx := countP_exchanges s Call.isSel false (fun _ _ => rfl) (a :: outs) j
  simp only [State.frameCalls, List.countP_append, hx]
  rfl

/-- One DESEL in a frame (R113). -/
theorem countP_isDesel_frameCalls (s : State) (j : Nat) (a : Octet) (outs : List Octet) :
    (s.frameCalls j a outs).countP Call.isDesel = 1 := by
  have hx := countP_exchanges s Call.isDesel false (fun _ _ => rfl) (a :: outs) j
  simp only [State.frameCalls, List.countP_append, hx]
  rfl

/-! ## Counts over a command -/

/-- A count that adds up over calls, and is `x` for each payload octet and `y` for each frame in one frame, is so over
the frames of a command. -/
theorem IsFrames.count {s : State} {frames payload : Nat} {calls : List Call} (h : IsFrames s frames payload calls)
    {count : List Call → Nat} {x y : Nat} (hadd : ∀ cs ds, count (cs ++ ds) = count cs + count ds)
    (hframe : ∀ j a outs, count (s.frameCalls j a outs) = x * outs.length + y) :
    count calls = x * payload + y * frames := by
  obtain ⟨rfl, a, outs, rfl, rfl⟩ | ⟨rfl, a, outs, b, outs', rfl, rfl⟩ := h
  · rw [hframe, Nat.mul_one]
  · rw [hadd, hframe, hframe, Nat.mul_add]
    omega

/-- Settles O19: the calls of every instruction are frames, and each count adds up over frames. -/
theorem commandsMakeWholeFrames : Obligations.CommandsMakeWholeFrames := by
  intro s t i h
  obtain ⟨calls, idx, res, rdata, dbuf, wacc, drawn, hexec, hframes, -, -⟩ := exec_shape i s
  obtain rfl := Host.Outcome.next.inj (hexec.symm.trans h)
  have hsel := hframes.count (x := 0) (y := 1) (fun _ _ => List.countP_append)
    fun j a outs => by rw [countP_isSel_frameCalls, Nat.zero_mul]
  have hdesel := hframes.count (x := 0) (y := 1) (fun _ _ => List.countP_append)
    fun j a outs => by rw [countP_isDesel_frameCalls, Nat.zero_mul]
  have hxchg := hframes.count (x := 1) (y := 1) (fun _ _ => List.countP_append)
    fun j a outs => by rw [countP_isXchg_frameCalls, Nat.one_mul]
  have hlength := hframes.count (x := 1) (y := 5) (fun _ _ => List.length_append)
    fun j a outs => by rw [frameCalls_length, Nat.one_mul]
  exact ⟨calls, rfl, wholeFrames_isFrames hframes, by omega, by omega, by omega, by omega⟩

/-- Settles O20: a finished command has dropped as many answers as it made exchanges. -/
theorem oneAnswerForEachExchange : Obligations.OneAnswerForEachExchange := by
  intro s t i k h
  obtain ⟨calls, idx, res, rdata, dbuf, wacc, drawn, hexec, -⟩ := exec_shape i s
  obtain rfl := Host.Outcome.next.inj (hexec.symm.trans h)
  exact answerAt_later rfl rfl k

end Sys2Proof.Machine
end

section
/-! What the transport's answers leave alone: the calls of a command without their answers are fixed by the operands,
the Bus Binding and DBUF, but for the octets of a write-back (40_transport_framing.md R122). -/

namespace Sys2Proof.Machine

/-! ## The calls of one frame without answers, and without octets -/

theorem map_unanswered_exchanges (s : State) (outs : List Octet) :
    ∀ j, (s.exchanges j outs).map Call.unanswered = outs.map (Call.xchg · 0) := by
  induction outs with
  | nil => intro j; rfl
  | cons o os ih => intro j; exact congrArg (Call.xchg o 0 :: ·) (ih (j + 1))

theorem map_blank_exchanges (s : State) (outs : List Octet) :
    ∀ j, (s.exchanges j outs).map Call.blank = List.replicate outs.length (Call.xchg 0 0) := by
  induction outs with
  | nil => intro j; rfl
  | cons o os ih => intro j; exact congrArg (Call.xchg 0 0 :: ·) (ih (j + 1))

section
variable {s t : State} (h : SameBinding s t)
include h

theorem SameBinding.busConfig : t.busConfig = s.busConfig := by
  obtain ⟨-, hclk, horder, hmode⟩ := h
  rw [State.busConfig, State.busConfig, hclk, horder, hmode]

/-- A frame that sends the same octets makes the same calls but for the answers (R122). -/
theorem SameBinding.map_unanswered_frameCalls (j : Nat) (a : Octet) (outs : List Octet) :
    (t.frameCalls j a outs).map Call.unanswered = (s.frameCalls j a outs).map Call.unanswered := by
  simp only [State.frameCalls, List.map_append, map_unanswered_exchanges, h.busConfig, h.1]

/-- A frame of the same length makes the same calls but for the octets. -/
theorem SameBinding.map_blank_frameCalls (j : Nat) (a : Octet) {outs outs' : List Octet}
    (hlen : outs'.length = outs.length) :
    (t.frameCalls j a outs').map Call.blank = (s.frameCalls j a outs).map Call.blank := by
  simp only [State.frameCalls, List.map_append, map_blank_exchanges, List.length_cons, hlen, h.busConfig, h.1]

end

/-! ## The frames of an instruction, as its operands and DBUF give them -/

/-- The one frame of an instruction other than a bit or field write: its octets are those of the operands and DBUF. -/
theorem effect_calls_of_one (s : State) : ∀ i : Instr, frameCount i = 1 →
    ∃ a outs, ∀ t : State, t.dbuf = s.dbuf → (effect t i).calls = t.frameCalls 0 a outs
  | .rdba _ _, _ | .xrdba _ _ _ _, _ | .rdwa _ _, _ | .xrdwa _ _ _ _, _ => ⟨_, _, fun _ _ => rfl⟩
  | .wrba a c, _ | .xwrba _ a c _, _ =>
    ⟨a, (s.elements c.toNat).map loOctet, fun t hd => by rw [State.elements, ← hd]; rfl⟩
  | .wrwa a c, _ | .xwrwa _ a c _, _ =>
    ⟨a, (s.elements c.toNat).flatMap fun x => [hiOctet x, loOctet x], fun t hd => by rw [State.elements, ← hd]; rfl⟩
  | .rdb _, _ | .xrdb _ _ _, _ | .rdw _, _ | .xrdw _ _ _, _ => ⟨_, _, fun _ _ => rfl⟩
  | .wrb _ _, _ | .xwrb _ _ _ _, _ | .wrw _ _, _ | .xwrw _ _ _ _, _ => ⟨_, _, fun _ _ => rfl⟩
  | .rdbitB _ _, _ | .xrdbitB _ _ _ _, _ | .rdbitW _ _, _ | .xrdbitW _ _ _ _, _ => ⟨_, _, fun _ _ => rfl⟩
  | .rdbitsB _ _ _, _ | .xrdbitsB _ _ _ _ _, _ | .rdbitsW _ _ _, _ | .xrdbitsW _ _ _ _ _, _ =>
    ⟨_, _, fun _ _ => rfl⟩

/-- The two frames of a bit or field write: a read frame, and a write-back of as many octets to the same address. -/
theorem effect_calls_of_two : ∀ i : Instr, frameCount i = 2 →
    ∃ a n, payloadCount i = 2 * n ∧ ∀ t : State, ∃ v, v.length = n ∧
      (effect t i).calls = t.readFrame 0 a n ++ t.writeFrame (n + 1) a v
  | .wrbitB a _ _, _ | .xwrbitB _ a _ _ _, _ => ⟨a, 1, rfl, fun _ => ⟨_, rfl, rfl⟩⟩
  | .wrbitsB a _ _ _, _ | .xwrbitsB _ a _ _ _ _, _ => ⟨a, 1, rfl, fun _ => ⟨_, rfl, rfl⟩⟩
  | .wrbitW a _ _, _ | .xwrbitW _ a _ _ _, _ => ⟨a, 2, rfl, fun _ => ⟨_, rfl, rfl⟩⟩
  | .wrbitsW a _ _ _, _ | .xwrbitsW _ a _ _ _ _, _ => ⟨a, 2, rfl, fun _ => ⟨_, rfl, rfl⟩⟩

/-- The calls of a bit or field write up to the address octet of its write-back. -/
theorem take_readFrame_writeFrame (s : State) (a : Octet) (n : Nat) (v : List Octet) :
    (s.readFrame 0 a n ++ s.writeFrame (n + 1) a v).take (n + 8) =
      s.readFrame 0 a n ++ [.beginFrame s.busConfig, .sel s.bindSel, .xchg a (s.answerAt (n + 1))] := by
  have hlen : (s.readFrame 0 a n).length = n + 5 := by simp [State.readFrame]
  rw [show n + 8 = (s.readFrame 0 a n).length + 3 by omega, List.take_length_add_append]
  rfl

/-- A bit or field write makes two frames and every other instruction one (R113). -/
theorem frameCount_eq_one_or_two (i : Instr) : frameCount i = 1 ∨ frameCount i = 2 := by
  cases i <;> simp [frameCount]

/-- What an instruction calls in two states of one binding and one DBUF: the same but for the octets. -/
theorem map_blank_effect_calls {s t : State} (h : SameBinding s t) (hd : t.dbuf = s.dbuf) (i : Instr) :
    (effect t i).calls.map Call.blank = (effect s i).calls.map Call.blank := by
  rcases frameCount_eq_one_or_two i with hone | htwo
  · obtain ⟨a, outs, hcalls⟩ := effect_calls_of_one s i hone
    rw [hcalls s rfl, hcalls t hd, h.map_blank_frameCalls 0 a rfl]
  · obtain ⟨a, n, -, hcalls⟩ := effect_calls_of_two i htwo
    obtain ⟨v, hv, hs⟩ := hcalls s
    obtain ⟨v', hv', ht⟩ := hcalls t
    rw [hs, ht, List.map_append, List.map_append, State.readFrame, State.readFrame, h.map_blank_frameCalls 0 _ rfl,
      State.writeFrame, State.writeFrame, h.map_blank_frameCalls _ a (hv'.trans hv.symm)]

/-- One frame: the octets sent are the same too. -/
theorem map_unanswered_effect_calls {s t : State} (h : SameBinding s t) (hd : t.dbuf = s.dbuf) {i : Instr}
    (hone : frameCount i = 1) : (effect t i).calls.map Call.unanswered = (effect s i).calls.map Call.unanswered := by
  obtain ⟨a, outs, hcalls⟩ := effect_calls_of_one s i hone
  rw [hcalls s rfl, hcalls t hd, h.map_unanswered_frameCalls]

/-- Two frames: the octets sent are the same up to the address octet of the write-back. -/
theorem map_unanswered_take_effect_calls {s t : State} (h : SameBinding s t) {i : Instr} (htwo : frameCount i = 2) :
    ((effect t i).calls.take (payloadCount i / 2 + 8)).map Call.unanswered =
      ((effect s i).calls.take (payloadCount i / 2 + 8)).map Call.unanswered := by
  obtain ⟨a, n, hcount, hcalls⟩ := effect_calls_of_two i htwo
  obtain ⟨v, -, hs⟩ := hcalls s
  obtain ⟨v', -, ht⟩ := hcalls t
  rw [hs, ht, hcount, Nat.mul_div_cancel_left n two_pos, take_readFrame_writeFrame, take_readFrame_writeFrame,
    List.map_append, List.map_append, State.readFrame, State.readFrame, h.map_unanswered_frameCalls, h.busConfig, h.1]
  rfl

/-- Settles O21: a frame's calls without answers are fixed by the binding and the octets sent, and the answers are in
no octet but those of a write-back. -/
theorem answersDoNotSteerTheCalls : Obligations.AnswersDoNotSteerTheCalls := by
  intro s t s' t' i h hd hs ht
  obtain rfl := Host.Outcome.next.inj ((exec_eq_apply_effect s i).symm.trans hs)
  obtain rfl := Host.Outcome.next.inj ((exec_eq_apply_effect t i).symm.trans ht)
  exact ⟨_, _, rfl, rfl, map_blank_effect_calls h hd i, map_unanswered_effect_calls h hd,
    map_unanswered_take_effect_calls h⟩

end Sys2Proof.Machine
end

section
/-! Words written out field by field, and both forms of an instruction: what the statement of every instruction asks
(30_encoding.md R81, R82, R89; 43_shim.md R170). -/

namespace Sys2Proof

/-- A word written out with S = 0 decodes to the instruction whose encoding has its fields. -/
theorem decode_word_simple {op : Op} {w : Bool} {a b : BitVec 8} {mid : BitVec 32} {i : Instr}
    (hi : encode i = pack op w false a mid 0 0) (hb : b = 0#2 ++ BitVec.ofBool false ++ BitVec.ofBool w ++ op.code)
    (hw : i.wellFormed = true) : decode (0#16 ++ mid ++ a ++ b : BitVec 64) = .ok i := by
  rw [word_simple op w a b mid hb, ← hi, decode_encode i hw]

/-- A word written out with S = 1 decodes to the X-form whose encoding has its fields. -/
theorem decode_word_shim {op : Op} {w : Bool} {t d a b : BitVec 8} {mid : BitVec 32} {i : Instr}
    (hi : encode i = pack op w true a mid d t) (hb : b = 0#2 ++ BitVec.ofBool true ++ BitVec.ofBool w ++ op.code)
    (hw : i.wellFormed = true) : decode (t ++ d ++ mid ++ a ++ b : BitVec 64) = .ok i := by
  rw [word_shim op w t d a b mid hb, ← hi, decode_encode i hw]

namespace Machine

/-- What holds of the state in which a simple instruction ends holds of that in which its X-form ends (R170). -/
theorem exists_next_of_either_form {s : State} {i x : Instr} {p : State → Prop} (hp : p ((effect s i).apply s))
    (hx : counterpart x = i) : ∀ k, k = i ∨ k = x → ∃ t, exec k s = .next t ∧ p t := by
  rintro k (rfl | rfl)
  · exact ⟨_, exec_eq_apply_effect s _, hp⟩
  · exact ⟨_, by rw [exec_counterpart, hx, exec_eq_apply_effect], hp⟩

/-- What an effect leaves, in the terms of the claims. -/
theorem completed_apply (e : Effect) (s : State) {entry : Fin 256 → Word}
    (h : ∀ j : Fin 256, (e.stored[j.val]?).getD (s.dbufAt j) = entry j) :
    Completed s (e.apply s) e.res (e.rdata.getD s.rdata) entry e.calls :=
  completed_finished _ _ _ _ _ _ _ _ _ _ fun j => (dbufAt_apply e s j).trans (h j)

end Machine
end Sys2Proof
end

section
/-! Array reads and writes, and single registers (41_array_access.md R130 to R138). -/

namespace Sys2Proof.Machine

/-! ## The elements of an array -/

/-- Entry `j` of the first `n` values of `f`, or what it was before. -/
theorem getD_map_range {α : Type} (f : Nat → α) (n j : Nat) (d : α) :
    (((List.range n).map f)[j]?).getD d = if j < n then f j else d := by
  by_cases h : j < n <;> simp [h]

/-- Octet `j` of a read array is the answer to exchange `1 + j`, zero-extended (R130). -/
theorem getD_answersFrom_zext16 (s : State) (n j : Nat) (d : Word) :
    (((s.answersFrom 1 n).map zext16)[j]?).getD d = if j < n then (s.answerAt (1 + j)).setWidth 16 else d := by
  rw [State.answersFrom, List.map_map, getD_map_range]
  rfl

/-- Word `j` of a read array is joined from the answers to exchanges `1 + 2 * j` and `2 + 2 * j` (R131). -/
theorem getD_wordsFrom (s : State) (n j : Nat) (d : Word) :
    ((s.wordsFrom 1 n)[j]?).getD d =
      if j < n then joinOctets s.bindOrder (s.answerAt (1 + 2 * j)) (s.answerAt (2 + 2 * j)) else d := by
  rw [State.wordsFrom, getD_map_range, State.wordAt, Nat.add_right_comm]

/-- The octets of a byte array write, entry by entry (R133). -/
theorem elements_map_loOctet (s : State) (n : Nat) :
    (s.elements n).map loOctet = ((List.finRange 256).take n).map fun j => (s.dbufAt j).extractLsb' 0 8 := by
  rw [elements_eq, List.map_map]
  rfl

/-- The octets of a word array write, entry by entry (R134). -/
theorem elements_flatMap_octets (s : State) (n : Nat) :
    ((s.elements n).flatMap fun x => [hiOctet x, loOctet x]) = ((List.finRange 256).take n).flatMap fun j =>
      [(s.dbufAt j).extractLsb' 8 8, (s.dbufAt j).extractLsb' 0 8] := by
  rw [elements_eq, List.flatMap_map]
  rfl

/-! ## Arrays -/

/-- Settles O23: the effect of RDBA stores the captured octets from entry 0 on. -/
theorem readByteArrayFillsBuffer : Obligations.ReadByteArrayFillsBuffer := by
  intro s a count devAddr timeout
  refine ⟨decode_word_simple (i := .rdba a count) rfl rfl rfl,
    decode_word_shim (i := .xrdba devAddr a count timeout) rfl rfl rfl,
    exists_next_of_either_form (completed_apply (effect s (.rdba a count)) s fun j => ?entry) rfl⟩
  case entry => exact getD_answersFrom_zext16 s count.toNat j (s.dbufAt j)

/-- Settles O24: the effect of RDWA stores the assembled words from entry 0 on. -/
theorem readWordArrayFillsBuffer : Obligations.ReadWordArrayFillsBuffer := by
  intro s a count devAddr timeout
  refine ⟨decode_word_simple (i := .rdwa a count) rfl rfl rfl,
    decode_word_shim (i := .xrdwa devAddr a count timeout) rfl rfl rfl,
    exists_next_of_either_form
      ⟨rfl, fun hpos => ?wacc, completed_apply (effect s (.rdwa a count)) s fun j => ?entry⟩ rfl⟩
  case wacc => exact wordsFrom_last s count.toNat hpos s.wacc
  case entry => exact getD_wordsFrom s count.toNat j (s.dbufAt j)

/-- Settles O25: the effect of WRBA stores nothing and sends the low octets of the elements. -/
theorem writeByteArraySendsBuffer : Obligations.WriteByteArraySendsBuffer := by
  intro s a count devAddr timeout
  rw [← elements_map_loOctet]
  exact ⟨decode_word_simple (i := .wrba a count) rfl rfl rfl,
    decode_word_shim (i := .xwrba devAddr a count timeout) rfl rfl rfl,
    exists_next_of_either_form (completed_apply (effect s (.wrba a count)) s fun _ => rfl) rfl⟩

/-- Settles O26: the effect of WRWA stores nothing and sends both octets of the elements, high first. -/
theorem writeWordArraySendsBuffer : Obligations.WriteWordArraySendsBuffer := by
  refine ⟨fun order x => ⟨wordOctets_config order x, rfl, rfl⟩, fun s a count devAddr timeout => ?_⟩
  rw [← elements_flatMap_octets]
  exact ⟨decode_word_simple (i := .wrwa a count) rfl rfl rfl,
    decode_word_shim (i := .xwrwa devAddr a count timeout) rfl rfl rfl,
    exists_next_of_either_form (completed_apply (effect s (.wrwa a count)) s fun _ => rfl) rfl⟩

/-! ## Single registers -/

/-- Settles O27: the effect of RDB writes the captured octet to RDATA. -/
theorem readOctetDelivers : Obligations.ReadOctetDelivers := fun s a devAddr timeout =>
  ⟨decode_word_simple (i := .rdb a) rfl rfl rfl, decode_word_shim (i := .xrdb devAddr a timeout) rfl rfl rfl,
    exists_next_of_either_form (completed_apply (effect s (.rdb a)) s fun _ => rfl) rfl⟩

/-- Settles O28: the effect of RDW writes the assembled word to RDATA and WACC. -/
theorem readWordDelivers : Obligations.ReadWordDelivers := fun s a devAddr timeout =>
  ⟨decode_word_simple (i := .rdw a) rfl rfl rfl, decode_word_shim (i := .xrdw devAddr a timeout) rfl rfl rfl,
    exists_next_of_either_form ⟨rfl, rfl, completed_apply (effect s (.rdw a)) s fun _ => rfl⟩ rfl⟩

/-- Settles O29: the effect of WRB sends the value in its write frame. -/
theorem writeOctetSends : Obligations.WriteOctetSends := fun s a value devAddr timeout =>
  ⟨decode_word_simple (i := .wrb a value) rfl rfl rfl,
    decode_word_shim (i := .xwrb devAddr a value timeout) rfl rfl rfl,
    exists_next_of_either_form (completed_apply (effect s (.wrb a value)) s fun _ => rfl) rfl⟩

/-- Settles O30: the effect of WRW sends both octets of the value in its write frame, high first. -/
theorem writeWordSends : Obligations.WriteWordSends := fun s value a devAddr timeout =>
  ⟨decode_word_simple (i := .wrw a value) rfl rfl rfl,
    decode_word_shim (i := .xwrw devAddr a value timeout) rfl rfl rfl,
    exists_next_of_either_form (completed_apply (effect s (.wrw a value)) s fun _ => rfl) rfl⟩

end Sys2Proof.Machine
end

section
/-! The word assembler (41_array_access.md R132). -/

namespace Sys2Proof.Machine

/-- The first octet of a word: no word completes, and HALF is set. -/
theorem assemble_first {s : State} (o : Octet) (h : s.half = false) :
    assemble o s = (none, { s with wacc := putFirst s.bindOrder s.wacc o, half := true }) := by
  simp [assemble, h]

/-- The second octet of a word: the word completes, and HALF is cleared. -/
theorem assemble_second {s : State} (o : Octet) (h : s.half = true) :
    assemble o s =
      (some (putSecond s.bindOrder s.wacc o), { s with wacc := putSecond s.bindOrder s.wacc o, half := false }) := by
  simp [assemble, h]

theorem putFirst_eq_ite (order : ByteOrder) (wacc : Word) (o : Octet) :
    putFirst order wacc o = if order = .msbFirst then o ++ loOctet wacc else hiOctet wacc ++ o := by
  cases order <;> rfl

theorem joinOctets_eq_ite (order : ByteOrder) (o1 o2 : Octet) :
    joinOctets order o1 o2 = if order = .msbFirst then o1 ++ o2 else o2 ++ o1 := by
  cases order <;> rfl

/-- Settles O42: the first octet goes to one half, the second to the other, and they are the word joined by the
order. -/
theorem assemblerJoinsTwoOctets : Obligations.AssemblerJoinsTwoOctets := by
  intro s o1 o2 h
  rw [assemble_first o1 h, assemble_second o2 rfl]
  dsimp only
  rw [putSecond_putFirst, putFirst_eq_ite, joinOctets_eq_ite]
  exact ⟨rfl, rfl, rfl, rfl⟩

end Sys2Proof.Machine
end

section
/-! The bit-field unit, bit by bit: the masks, EXTRACT and INSERT, and the round trips (42_bit_access.md R151, R152,
R162). -/

namespace Sys2Proof.Machine

/-! ## Valid descriptors and the masks (R151) -/

theorem validField_iff (b l w : Nat) : validField b l w = true ↔ b ≤ w - 1 ∧ l ≤ w ∧ l ≤ b + 1 := by
  simp [validField, and_assoc]

/-- The field of a valid descriptor ends at bit `b`. -/
theorem fshift_add_length {b l w : Nat} (h : validField b l w = true) : fshift b l + l = b + 1 := by
  obtain ⟨-, -, hl⟩ := (validField_iff b l w).1 h
  exact Nat.sub_add_cancel hl

theorem fmask_eq_ofNat (w b l : Nat) : fmask w b l = BitVec.ofNat w ((2 ^ l - 1) * 2 ^ fshift b l) := by
  rw [fmask, Nat.one_shiftLeft, Nat.shiftLeft_eq]

/-- The mask has bits `b` down to FSHIFT set. -/
theorem getLsbD_fmask {w b l : Nat} (h : validField b l w = true) (k : Nat) :
    (fmask w b l).getLsbD k = (decide (k < w) && (decide (fshift b l ≤ k) && decide (k ≤ b))) := by
  have hend := fshift_add_length h
  rw [fmask, BitVec.getLsbD_ofNat, Nat.one_shiftLeft, Nat.testBit_shiftLeft, Nat.testBit_two_pow_sub_one]
  congr 1
  by_cases hk : fshift b l ≤ k
  · simp only [ge_iff_le, hk, decide_true, Bool.true_and, decide_eq_decide]
    omega
  · simp [hk]

/-- The integer mask fits the register. -/
theorem fmask_lt {w b l : Nat} (hw : 0 < w) (h : validField b l w = true) :
    (2 ^ l - 1) * 2 ^ fshift b l < 2 ^ w := by
  obtain ⟨hb, -, -⟩ := (validField_iff b l w).1 h
  have hones : 2 ^ l - 1 < 2 ^ l := Nat.sub_lt (Nat.two_pow_pos l) one_pos
  calc (2 ^ l - 1) * 2 ^ fshift b l
      < 2 ^ l * 2 ^ fshift b l := Nat.mul_lt_mul_of_pos_right hones (Nat.two_pow_pos _)
    _ = 2 ^ (b + 1) := by rw [← pow_add, Nat.add_comm l, fshift_add_length h]
    _ ≤ 2 ^ w := Nat.pow_le_pow_right two_pos (by omega)

/-- BMASK as the register with one bit set. -/
theorem bmask_eq_shiftLeft (w n : Nat) : bmask w n = 1#w <<< n := by
  apply BitVec.eq_of_toNat_eq
  rw [← BitVec.twoPow_eq, BitVec.toNat_twoPow, bmask, BitVec.toNat_ofNat, Nat.one_shiftLeft]

theorem getLsbD_bmask {w n : Nat} (hn : n < w) (k : Nat) : (bmask w n).getLsbD k = decide (k = n) := by
  rw [bmask_eq_shiftLeft, ← BitVec.twoPow_eq, BitVec.getLsbD_twoPow]
  simp [hn, eq_comm]

/-- Settles O39: the descriptor by integers, the masks bit by bit. -/
theorem fieldMaskCoversTheField : Obligations.FieldMaskCoversTheField := by
  intro w b l hwidth
  have hw : 0 < w := by omega
  refine ⟨validField_iff b l w, fun h => ?field, fun n hn k _ => getLsbD_bmask (by omega) k⟩
  case field =>
    obtain ⟨hb, hlw, hl⟩ := (validField_iff b l w).1 h
    have hend := fshift_add_length h
    refine ⟨by omega, by omega, by omega, fmask_eq_ofNat w b l, fmask_lt hw h, fun k hk => ?bits⟩
    case bits => rw [getLsbD_fmask h, decide_eq_true hk, Bool.true_and]

/-! ## EXTRACT and INSERT (R152) -/

/-- A value below `2^l` has no bit set from bit `l` on. -/
theorem getLsbD_eq_false_of_lt {w l : Nat} {v : BitVec w} (hv : v.toNat < 2 ^ l) {k : Nat} (hk : l ≤ k) :
    v.getLsbD k = false := by
  rw [← BitVec.testBit_toNat]
  exact Nat.testBit_lt_two_pow (Nat.lt_of_lt_of_le hv (Nat.pow_le_pow_right two_pos hk))

section
variable {w b l : Nat} (h : validField b l w = true)
include h

theorem getLsbD_extractField (x : BitVec w) (k : Nat) :
    (extractField x b l).getLsbD k = (decide (k < l) && x.getLsbD (fshift b l + k)) := by
  have hend := fshift_add_length h
  rw [extractField, BitVec.getLsbD_ushiftRight, BitVec.getLsbD_and, getLsbD_fmask h]
  by_cases hin : fshift b l + k < w
  · have hle : fshift b l + k ≤ b ↔ k < l := by omega
    simp [hin, hle, Bool.and_comm]
  · simp [BitVec.getLsbD_of_ge x _ (Nat.le_of_not_lt hin)]

theorem extractField_lt (x : BitVec w) : (extractField x b l).toNat < 2 ^ l := by
  refine Nat.lt_pow_two_of_testBit _ fun k hk => ?_
  rw [BitVec.testBit_toNat, getLsbD_extractField h, decide_eq_false (Nat.not_lt.2 hk), Bool.false_and]

theorem getLsbD_insertField (x : BitVec w) {v : BitVec w} (hv : v.toNat < 2 ^ l) {k : Nat} (hk : k < w) :
    (insertField x b l v).getLsbD k =
      if fshift b l ≤ k ∧ k ≤ b then v.getLsbD (k - fshift b l) else x.getLsbD k := by
  have hend := fshift_add_length h
  rw [insertField, BitVec.getLsbD_or, BitVec.getLsbD_and, BitVec.getLsbD_not, getLsbD_fmask h,
    BitVec.getLsbD_shiftLeft]
  by_cases hlow : fshift b l ≤ k
  · by_cases hhigh : k ≤ b
    · simp [hk, hlow, hhigh]
    · have hout : v.getLsbD (k - fshift b l) = false := getLsbD_eq_false_of_lt hv (by omega)
      simp [hk, hhigh, hout]
  · simp [hk, hlow, Nat.lt_of_not_le hlow]

/-! ## The round trips (R162) -/

/-- Inserting what was extracted leaves the register unchanged. -/
theorem insertField_extractField (x : BitVec w) : insertField x b l (extractField x b l) = x := by
  have hend := fshift_add_length h
  refine BitVec.eq_of_getLsbD_eq fun k hk => ?_
  rw [getLsbD_insertField h x (extractField_lt h x) hk, getLsbD_extractField h]
  split
  next hfield =>
    rw [decide_eq_true (show k - fshift b l < l by omega), Bool.true_and, Nat.add_sub_cancel' hfield.1]
  next => rfl

/-- What was inserted reads back. -/
theorem extractField_insertField (x : BitVec w) {v : BitVec w} (hv : v.toNat < 2 ^ l) :
    extractField (insertField x b l v) b l = v := by
  obtain ⟨hb, -, -⟩ := (validField_iff b l w).1 h
  have hend := fshift_add_length h
  refine BitVec.eq_of_getLsbD_eq fun k hk => ?_
  rw [getLsbD_extractField h]
  by_cases hkl : k < l
  · rw [getLsbD_insertField h x hv (by omega), if_pos (by omega), Nat.add_sub_cancel_left, decide_eq_true hkl,
      Bool.true_and]
  · rw [decide_eq_false hkl, Bool.false_and, getLsbD_eq_false_of_lt hv (Nat.le_of_not_lt hkl)]

end

/-- Settles O40: the bits of EXTRACT and of INSERT, and no bit of EXTRACT from `l` on. -/
theorem extractAndInsertActOnTheField : Obligations.ExtractAndInsertActOnTheField := fun _ _ _ x _ _ h =>
  ⟨fun k _ => getLsbD_extractField h x k, extractField_lt h x, fun hv _ hk => getLsbD_insertField h x hv hk⟩

/-- Settles O41: both round trips hold bit by bit. -/
theorem fieldRoundTrip : Obligations.FieldRoundTrip := fun _ _ _ x _ _ h =>
  ⟨insertField_extractField h x, extractField_insertField h x⟩

end Sys2Proof.Machine
end

section
/-! Bit and field reads and writes (42_bit_access.md R153 to R164; 43_shim.md R179 to R186). -/

namespace Sys2Proof

/-! ## Operand fields placed as they are (R82) -/

theorem fitsBitPos_toNat (n : BitVec 4) : fitsBitPos n.toNat = true := decide_eq_true n.isLt

theorem fitsLength_toNat (l : BitVec 5) : fitsLength l.toNat = true := decide_eq_true l.isLt

/-- A descriptor taken from its fields fits them. -/
theorem fits_toNat (b : BitVec 4) (l : BitVec 5) : (fitsBitPos b.toNat && fitsLength l.toNat) = true := by
  rw [fitsBitPos_toNat, fitsLength_toNat, Bool.and_self]

theorem midB_toNat (n : BitVec 4) : midB n.toNat = 0#28 ++ n := by
  rw [midB, BitVec.ofNat_toNat, BitVec.setWidth_eq]

theorem midBW_toNat (n : BitVec 4) (v : Bool) : midBW n.toNat v = 0#15 ++ BitVec.ofBool v ++ 0#12 ++ n := by
  rw [midBW, BitVec.ofNat_toNat, BitVec.setWidth_eq]

theorem midF_toNat (b : BitVec 4) (l : BitVec 5) : midF b.toNat l.toNat = 0#19 ++ l ++ 0#4 ++ b := by
  rw [midF, BitVec.ofNat_toNat, BitVec.ofNat_toNat, BitVec.setWidth_eq, BitVec.setWidth_eq]

theorem midFWB_toNat (b : BitVec 4) (l : BitVec 5) (v : Octet) :
    midFWB b.toNat l.toNat v = 0#8 ++ v ++ 0#3 ++ l ++ 0#4 ++ b := by
  rw [midFWB, BitVec.ofNat_toNat, BitVec.ofNat_toNat, BitVec.setWidth_eq, BitVec.setWidth_eq]

theorem midFWW_toNat (b : BitVec 4) (l : BitVec 5) (v : Word) :
    midFWW b.toNat l.toNat v = v ++ 0#3 ++ l ++ 0#4 ++ b := by
  rw [midFWW, BitVec.ofNat_toNat, BitVec.ofNat_toNat, BitVec.setWidth_eq, BitVec.setWidth_eq]

namespace Machine

/-! ## Computed values where their rule defines them (R153 to R160, R163) -/

theorem valueOr_of_defined {w : Nat} {d : Bool} (h : d = true) (v : BitVec w) (k : Nat) : valueOr d v k = v := by
  rw [h, valueOr_true]

@[simp] theorem zext16_word (v : Word) : zext16 v = v := BitVec.setWidth_eq v

/-- The octet or word RDBIT masks. -/
theorem valueOr_readBit {w n : Nat} (hn : n ≤ w - 1) (x : BitVec w) (k : Nat) :
    valueOr (validBit n w) (readBit x n) k = x &&& 1#w <<< n := by
  have hvalid : validBit n w = true := decide_eq_true hn
  rw [valueOr_of_defined hvalid, readBit, bmask_eq_shiftLeft]

/-- The octet or word WRBIT writes back. -/
theorem valueOr_writeBit {w n : Nat} (hn : n ≤ w - 1) (x : BitVec w) (v : Bool) (k : Nat) :
    valueOr (validBit n w) (writeBit x n v) k = if v then x ||| 1#w <<< n else x &&& ~~~(1#w <<< n) := by
  have hvalid : validBit n w = true := decide_eq_true hn
  rw [valueOr_of_defined hvalid, writeBit, bmask_eq_shiftLeft]

/-- The octet or word WRBITS writes back. -/
theorem valueOr_insertField {w b l : Nat} {v : BitVec w} (hd : validField b l w = true) (hv : v.toNat < 2 ^ l)
    (x : BitVec w) (k : Nat) :
    valueOr (validField b l w && valueFits l v) (insertField x b l v) k = insertField x b l v := by
  have hfits : valueFits l v = true := decide_eq_true hv
  rw [hd, hfits]
  exact valueOr_true _ k

/-! ## A read that reported zero elements (R161, R195) -/

/-- A read of zero elements completes with RES = 0 and leaves RDATA, whatever was computed. -/
theorem completed_completeRead_zero {w : Nat} (s : State) (d : Bool) (v : BitVec w) (x : Word) :
    Completed s (completeRead 0 (deliver 0 x (computed d v s).2)) 0 s.rdata s.dbufAt [] := by
  rw [computed_eq]
  exact ⟨rfl, rfl, fun _ => rfl, (List.append_nil s.trace).symm, rfl, rfl, rfl, rfl, rfl, rfl, rfl, rfl, rfl⟩

theorem completed_finishReadBit_zero {w : Nat} (k : Nat) (r : ReadResult w) (h : r.n = 0) :
    Completed r.after (finishReadBit k r) 0 r.after.rdata r.after.dbufAt [] := by
  rw [finishReadBit, h]
  exact completed_completeRead_zero r.after _ _ _

theorem completed_finishReadField_zero {w : Nat} (b l : Nat) (r : ReadResult w) (h : r.n = 0) :
    Completed r.after (finishReadField b l r) 0 r.after.rdata r.after.dbufAt [] := by
  rw [finishReadField, h]
  exact completed_completeRead_zero r.after _ _ _

/-- WRBITS aborts before its write frame. -/
theorem completed_finishWriteField_zero {w : Nat} (write : BitVec w → State → WriteResult) (b l : Nat)
    (v : BitVec w) (r : ReadResult w) (h : r.n = 0) :
    Completed r.after (finishWriteField write b l v r) 0 r.after.rdata r.after.dbufAt [] := by
  rw [finishWriteField, if_pos h]
  exact ⟨rfl, rfl, fun _ => rfl, (List.append_nil _).symm, rfl, rfl, rfl, rfl, rfl, rfl, rfl, rfl, rfl⟩

/-! ## Both forms of an instruction, with the value computed -/

/-- `exists_next_of_either_form` where the claim also names the value computed. -/
theorem exists_value_of_either_form {α : Type} {s : State} {i x : Instr} {p : State → α → Prop} (v : α)
    (hp : p ((effect s i).apply s) v) (hx : counterpart x = i) :
    ∀ k, k = i ∨ k = x → ∃ t, ∃ v, exec k s = .next t ∧ p t v := fun k hk =>
  have ⟨t, hnext, hpt⟩ := exists_next_of_either_form (p := fun t => p t v) hp hx k hk
  ⟨t, v, hnext, hpt⟩

/-! ## Reads of bits and fields -/

/-- Settles O31: the effect of RDBIT.B writes the masked octet to RDATA, zero-extended. -/
theorem readBitOfOctetDelivers : Obligations.ReadBitOfOctetDelivers := by
  refine ⟨completed_finishReadBit_zero, fun s a devAddr timeout n => ?_⟩
  rw [← midB_toNat]
  exact ⟨decode_word_simple (i := .rdbitB a n.toNat) rfl rfl (fitsBitPos_toNat n),
    decode_word_shim (i := .xrdbitB devAddr a n.toNat timeout) rfl rfl (fitsBitPos_toNat n),
    exists_value_of_either_form (valueOr (validBit n.toNat 8) (readBit (s.answerAt 1) n.toNat) s.draws)
      ⟨fun hn => valueOr_readBit hn _ _, completed_apply (effect s (.rdbitB a n.toNat)) s fun _ => rfl⟩ rfl⟩

/-- Settles O32: the effect of RDBIT.W writes the masked word to RDATA, and every bit number is one of a word. -/
theorem readBitOfWordDelivers : Obligations.ReadBitOfWordDelivers := by
  refine ⟨completed_finishReadBit_zero, fun s a devAddr timeout n => ?_⟩
  have hvalue : zext16 (valueOr (validBit n.toNat 16) (readBit (s.wordAt 1) n.toNat) s.draws)
      = s.wordAt 1 &&& 1#16 <<< n.toNat :=
    (zext16_word _).trans (valueOr_readBit (Nat.le_of_lt_succ n.isLt) _ _)
  rw [← midB_toNat]
  refine ⟨decode_word_simple (i := .rdbitW a n.toNat) rfl rfl (fitsBitPos_toNat n),
    decode_word_shim (i := .xrdbitW devAddr a n.toNat timeout) rfl rfl (fitsBitPos_toNat n),
    exists_next_of_either_form ⟨rfl, rfl, ?completed⟩ rfl⟩
  case completed => exact hvalue ▸ completed_apply (effect s (.rdbitW a n.toNat)) s fun _ => rfl

/-- Settles O33: the effect of RDBITS.B writes the extracted field to RDATA, zero-extended. -/
theorem readFieldOfOctetDelivers : Obligations.ReadFieldOfOctetDelivers := by
  refine ⟨completed_finishReadField_zero, fun s a devAddr timeout b l => ?_⟩
  rw [← midF_toNat]
  exact ⟨decode_word_simple (i := .rdbitsB a b.toNat l.toNat) rfl rfl (fits_toNat b l),
    decode_word_shim (i := .xrdbitsB devAddr a b.toNat l.toNat timeout) rfl rfl (fits_toNat b l),
    exists_value_of_either_form
      (valueOr (validField b.toNat l.toNat 8) (extractField (s.answerAt 1) b.toNat l.toNat) s.draws)
      ⟨fun hd => valueOr_of_defined hd _ _, completed_apply (effect s (.rdbitsB a b.toNat l.toNat)) s fun _ => rfl⟩
      rfl⟩

/-- Settles O34: the effect of RDBITS.W writes the extracted field to RDATA. -/
theorem readFieldOfWordDelivers : Obligations.ReadFieldOfWordDelivers := by
  refine ⟨completed_finishReadField_zero, fun s a devAddr timeout b l => ?_⟩
  rw [← midF_toNat]
  exact ⟨decode_word_simple (i := .rdbitsW a b.toNat l.toNat) rfl rfl (fits_toNat b l),
    decode_word_shim (i := .xrdbitsW devAddr a b.toNat l.toNat timeout) rfl rfl (fits_toNat b l),
    exists_value_of_either_form
      (zext16 (valueOr (validField b.toNat l.toNat 16) (extractField (s.wordAt 1) b.toNat l.toNat) s.draws))
      ⟨rfl, rfl, fun hd => (zext16_word _).trans (valueOr_of_defined hd _ _),
        completed_apply (effect s (.rdbitsW a b.toNat l.toNat)) s fun _ => rfl⟩ rfl⟩

/-! ## Writes of bits and fields -/

/-- Settles O35: the effect of WRBIT.B sends the octet with the bit set or cleared. -/
theorem writeBitOfOctetReadsThenWrites : Obligations.WriteBitOfOctetReadsThenWrites := by
  refine ⟨fun _ _ _ _ => rfl, fun s a devAddr timeout n value => ?_⟩
  rw [← midBW_toNat]
  exact ⟨decode_word_simple (i := .wrbitB a n.toNat value) rfl rfl (fitsBitPos_toNat n),
    decode_word_shim (i := .xwrbitB devAddr a n.toNat value timeout) rfl rfl (fitsBitPos_toNat n),
    exists_value_of_either_form (bitOut8 n.toNat value s)
      ⟨fun hn => valueOr_writeBit hn _ _ _, completed_apply (effect s (.wrbitB a n.toNat value)) s fun _ => rfl⟩
      rfl⟩

/-- Settles O36: the effect of WRBIT.W sends the word with the bit set or cleared, high octet first. -/
theorem writeBitOfWordReadsThenWrites : Obligations.WriteBitOfWordReadsThenWrites := by
  refine ⟨fun _ _ _ _ => rfl, fun s a devAddr timeout n value => ?_⟩
  have hn : n.toNat ≤ 16 - 1 := Nat.le_of_lt_succ n.isLt
  rw [← midBW_toNat]
  exact ⟨decode_word_simple (i := .wrbitW a n.toNat value) rfl rfl (fitsBitPos_toNat n),
    decode_word_shim (i := .xwrbitW devAddr a n.toNat value timeout) rfl rfl (fitsBitPos_toNat n),
    exists_value_of_either_form (bitOut16 n.toNat value s)
      ⟨rfl, rfl, valueOr_writeBit hn _ _ _, completed_apply (effect s (.wrbitW a n.toNat value)) s fun _ => rfl⟩
      rfl⟩

/-- Settles O37: the effect of WRBITS.B sends the octet with the field inserted. -/
theorem writeFieldOfOctetReadsThenWrites : Obligations.WriteFieldOfOctetReadsThenWrites := by
  refine ⟨fun b l addr value => completed_finishWriteField_zero (writeReg8 addr) b l value,
    fun s a devAddr timeout value b l => ?_⟩
  rw [← midFWB_toNat]
  exact ⟨decode_word_simple (i := .wrbitsB a b.toNat l.toNat value) rfl rfl (fits_toNat b l),
    decode_word_shim (i := .xwrbitsB devAddr a b.toNat l.toNat value timeout) rfl rfl (fits_toNat b l),
    exists_value_of_either_form (fieldOut8 b.toNat l.toNat value s)
      ⟨fun hd hv => valueOr_insertField hd hv _ _,
        completed_apply (effect s (.wrbitsB a b.toNat l.toNat value)) s fun _ => rfl⟩ rfl⟩

/-- Settles O38: the effect of WRBITS.W sends the word with the field inserted, high octet first. -/
theorem writeFieldOfWordReadsThenWrites : Obligations.WriteFieldOfWordReadsThenWrites := by
  refine ⟨fun b l addr value => completed_finishWriteField_zero (writeReg16 Config.wrWordOrder addr) b l value,
    fun s a devAddr timeout value b l => ?_⟩
  rw [← midFWW_toNat]
  exact ⟨decode_word_simple (i := .wrbitsW a b.toNat l.toNat value) rfl rfl (fits_toNat b l),
    decode_word_shim (i := .xwrbitsW devAddr a b.toNat l.toNat value timeout) rfl rfl (fits_toNat b l),
    exists_value_of_either_form (fieldOut16 b.toNat l.toNat value s)
      ⟨rfl, rfl, fun hd hv => valueOr_insertField hd hv _ _,
        completed_apply (effect s (.wrbitsW a b.toNat l.toNat value)) s fun _ => rfl⟩ rfl⟩

end Machine
end Sys2Proof
end

section
/-! Write-backs that change no bit: what they send, by BIND_ORDER (42_bit_access.md R162, R164;
70_reset_and_hazards.md R216). -/

namespace Sys2Proof.Machine

/-! ## Writing back what the read extracted (R162) -/

section
variable {b l : Nat}

theorem fieldOut8_extractField (h : validField b l 8 = true) (s : State) :
    fieldOut8 b l (extractField (s.answerAt 1) b l) s = s.answerAt 1 :=
  (valueOr_insertField h (extractField_lt h _) _ _).trans (insertField_extractField h _)

theorem fieldOut16_extractField (h : validField b l 16 = true) (s : State) :
    fieldOut16 b l (extractField (s.wordAt 1) b l) s = s.wordAt 1 :=
  (valueOr_insertField h (extractField_lt h _) _ _).trans (insertField_extractField h _)

/-- A field of no bits is zero. -/
theorem extractField_length_zero {w : Nat} (h : validField b 0 w = true) (x : BitVec w) : extractField x b 0 = 0 :=
  BitVec.eq_of_toNat_eq (Nat.lt_one_iff.1 (extractField_lt h x))

end

/-! ## The calls of a field write, and the octets of a word -/

section
variable (s : State) (a : Octet) (b l : Nat)

theorem trace_apply_wrbitsB (v : Octet) : ((effect s (.wrbitsB a b l v)).apply s).trace =
    s.trace ++ s.readFrame 0 a 1 ++ s.writeFrame 2 a [fieldOut8 b l v s] :=
  (List.append_assoc ..).symm

theorem trace_apply_wrbitsW (v : Word) : ((effect s (.wrbitsW a b l v)).apply s).trace =
    s.trace ++ s.readFrame 0 a 2 ++ s.writeFrame 3 a [hiOctet (fieldOut16 b l v s), loOctet (fieldOut16 b l v s)] :=
  (List.append_assoc ..).symm

/-- RDATA holds the field RDBITS.B read. -/
theorem loOctet_rdata_apply_rdbitsB (h : validField b l 8 = true) :
    loOctet ((effect s (.rdbitsB a b l)).apply s).rdata = extractField (s.answerAt 1) b l :=
  (loOctet_zext16 _).trans (valueOr_of_defined h _ _)

/-- RDATA holds the field RDBITS.W read. -/
theorem rdata_apply_rdbitsW (h : validField b l 16 = true) :
    ((effect s (.rdbitsW a b l)).apply s).rdata = extractField (s.wordAt 1) b l :=
  (zext16_word _).trans (valueOr_of_defined h _ _)

end

/-- Under MSB_FIRST high octet first is the order a word came in. -/
theorem octets_wordAt_msbFirst {s : State} (h : s.bindOrder = .msbFirst) (j : Nat) :
    [hiOctet (s.wordAt j), loOctet (s.wordAt j)] = [s.answerAt j, s.answerAt (j + 1)] := by
  rw [State.wordAt, h, joinOctets, hiOctet_append, loOctet_append]

/-- Under LSB_FIRST high octet first is the opposite order. -/
theorem octets_wordAt_lsbFirst {s : State} (h : s.bindOrder = .lsbFirst) (j : Nat) :
    [hiOctet (s.wordAt j), loOctet (s.wordAt j)] = [s.answerAt (j + 1), s.answerAt j] := by
  rw [State.wordAt, h, joinOctets, hiOctet_append, loOctet_append]

/-! ## The rules over several instructions -/

/-- Settles O45: a field of no bits leaves the word read, which is sent high octet first. -/
theorem wordWriteBackSwapsUnderLsbFirst : Obligations.WordWriteBackSwapsUnderLsbFirst := by
  intro s a b hb
  have hvalid : validField b 0 16 = true := (validField_iff b 0 16).2 ⟨hb, by omega, by omega⟩
  have hout : fieldOut16 b 0 0 s = s.wordAt 1 := by
    have h := fieldOut16_extractField hvalid s
    rwa [extractField_length_zero hvalid] at h
  refine ⟨_, exec_eq_apply_effect s _, fun horder => ?msb, fun horder => ?lsb⟩
  case msb => rw [trace_apply_wrbitsW, hout, octets_wordAt_msbFirst horder]
  case lsb => rw [trace_apply_wrbitsW, hout, octets_wordAt_lsbFirst horder]

/-- Reading a field of an octet and writing it back sends the octet answered. -/
theorem trace_write_back_octet {s t : State} {a : Octet} {b l : Nat} (h : validField b l 8 = true)
    (ht : t = (effect s (.rdbitsB a b l)).apply s) (h1 : t.answerAt 1 = s.answerAt 1) :
    ((effect t (.wrbitsB a b l (loOctet t.rdata))).apply t).trace =
      t.trace ++ t.readFrame 0 a 1 ++ t.writeFrame 2 a [s.answerAt 1] := by
  have hfield : loOctet t.rdata = extractField (t.answerAt 1) b l := by
    rw [h1, ht, loOctet_rdata_apply_rdbitsB s a b l h]
  rw [trace_apply_wrbitsB, hfield, fieldOut8_extractField h, h1]

/-- Under MSB_FIRST reading a field of a word and writing it back sends the octets answered. -/
theorem trace_write_back_word {s t : State} {a : Octet} {b l : Nat} (h : validField b l 16 = true)
    (horder : s.bindOrder = .msbFirst) (ht : t = (effect s (.rdbitsW a b l)).apply s)
    (h1 : t.answerAt 1 = s.answerAt 1) (h2 : t.answerAt 2 = s.answerAt 2) :
    ((effect t (.wrbitsW a b l t.rdata)).apply t).trace =
      t.trace ++ t.readFrame 0 a 2 ++ t.writeFrame 3 a [s.answerAt 1, s.answerAt 2] := by
  have hbind : t.bindOrder = s.bindOrder := by rw [ht]; rfl
  have hword : t.wordAt 1 = s.wordAt 1 := by rw [State.wordAt, State.wordAt, hbind, h1, h2]
  have hfield : t.rdata = extractField (t.wordAt 1) b l := by rw [hword, ht, rdata_apply_rdbitsW s a b l h]
  rw [trace_apply_wrbitsW, hfield, fieldOut16_extractField h, octets_wordAt_msbFirst (hbind.trans horder), h1, h2]

/-- Settles O46: the field read is in RDATA, and inserting it in the same answers changes no bit. -/
theorem fieldReadThenWriteSendsTheSame : Obligations.FieldReadThenWriteSendsTheSame := fun s _ _ _ =>
  ⟨fun h => ⟨_, _, exec_eq_apply_effect s _, exec_eq_apply_effect _ _, trace_write_back_octet h rfl⟩,
    fun h horder => ⟨_, _, exec_eq_apply_effect s _, exec_eq_apply_effect _ _,
      trace_write_back_word h horder rfl⟩⟩

end Sys2Proof.Machine
end

section
/-! The compatibility shim: the word of an X-form and the word of its counterpart, which differ in S, DEVADDR and
TIMEOUT only (30_encoding.md R81, R85; 43_shim.md R170). -/

namespace Sys2Proof

/-- The word with S, DEVADDR and TIMEOUT (bits 5 and 63:48) cleared (R85, R170). -/
def simpleWord (c : BitVec 64) : BitVec 64 := c &&& 0x0000FFFFFFFFFFDF

/-! ## The fields that stay, and those that are cleared -/

theorem getLsbD_simpleWord (c : BitVec 64) (i : Nat) :
    (simpleWord c).getLsbD i = (c.getLsbD i && decide (i ≠ 5 ∧ i < 48)) := by
  have hmask : ∀ j : Fin 64, (0x0000FFFFFFFFFFDF : BitVec 64).getLsbD j = decide (j.val ≠ 5 ∧ j.val < 48) := by
    decide
  rw [simpleWord, BitVec.getLsbD_and]
  by_cases hi : i < 64
  · rw [hmask ⟨i, hi⟩]
  · rw [BitVec.getLsbD_of_ge c i (by omega), Bool.false_and, Bool.false_and]

theorem getLsbD_simpleWord_kept (c : BitVec 64) {i : Nat} (h : i ≠ 5 ∧ i < 48) :
    (simpleWord c).getLsbD i = c.getLsbD i := by
  rw [getLsbD_simpleWord, decide_eq_true h, Bool.and_true]

theorem getLsbD_simpleWord_cleared (c : BitVec 64) {i : Nat} (h : ¬(i ≠ 5 ∧ i < 48)) :
    (simpleWord c).getLsbD i = false := by
  rw [getLsbD_simpleWord, decide_eq_false h, Bool.and_false]

/-- A field below bit 48 that leaves out S stays. -/
theorem extractLsb'_simpleWord (c : BitVec 64) {lo n : Nat} (hS : lo + n ≤ 5 ∨ 5 < lo) (hn : lo + n ≤ 48) :
    (simpleWord c).extractLsb' lo n = c.extractLsb' lo n := by
  apply BitVec.eq_of_getLsbD_eq
  intro i hi
  rw [BitVec.getLsbD_extractLsb', BitVec.getLsbD_extractLsb', getLsbD_simpleWord_kept c (by omega)]

section
variable (c : BitVec 64)

@[simp] theorem fieldOp_simpleWord : fieldOp (simpleWord c) = fieldOp c :=
  extractLsb'_simpleWord c (.inl (by decide)) (by decide)

@[simp] theorem fieldW_simpleWord : fieldW (simpleWord c) = fieldW c := getLsbD_simpleWord_kept c (by decide)

@[simp] theorem fieldS_simpleWord : fieldS (simpleWord c) = false := getLsbD_simpleWord_cleared c (by decide)

@[simp] theorem fieldAddr_simpleWord : fieldAddr (simpleWord c) = fieldAddr c :=
  extractLsb'_simpleWord c (.inr (by decide)) (by decide)

@[simp] theorem fieldCount_simpleWord : fieldCount (simpleWord c) = fieldCount c :=
  extractLsb'_simpleWord c (.inr (by decide)) (by decide)

@[simp] theorem fieldBitPos_simpleWord : fieldBitPos (simpleWord c) = fieldBitPos c :=
  congrArg BitVec.toNat (extractLsb'_simpleWord c (.inr (by decide)) (by decide))

@[simp] theorem fieldLength_simpleWord : fieldLength (simpleWord c) = fieldLength c :=
  congrArg BitVec.toNat (extractLsb'_simpleWord c (.inr (by decide)) (by decide))

@[simp] theorem fieldBval_simpleWord : fieldBval (simpleWord c) = fieldBval c :=
  getLsbD_simpleWord_kept c (by decide)

@[simp] theorem fieldValueB_simpleWord : fieldValueB (simpleWord c) = fieldValueB c :=
  extractLsb'_simpleWord c (.inr (by decide)) (by decide)

@[simp] theorem fieldValueW_simpleWord : fieldValueW (simpleWord c) = fieldValueW c :=
  extractLsb'_simpleWord c (.inr (by decide)) (by decide)

/-- DEVADDR and TIMEOUT are cleared. -/
@[simp] theorem rangeZero_simpleWord_shim : rangeZero (simpleWord c) (63, 48) = true :=
  (rangeZero_iff _ _).2 ((extractLsb'_eq_zero_iff _ _ _).2 fun _ _ =>
    getLsbD_simpleWord_cleared c (by omega))

/-- A must-be-zero range between S and DEVADDR stays. -/
theorem rangeZero_simpleWord {r : Nat × Nat} (h : 5 < r.2 ∧ r.2 ≤ r.1 ∧ r.1 < 48) :
    rangeZero (simpleWord c) r = rangeZero c r := by
  rw [rangeZero, rangeZero, extractLsb'_simpleWord c (.inr h.1) (by omega)]

end

/-! ## Decoding -/

/-- The must-be-zero ranges of a format lie between S and DEVADDR (R82). -/
theorem zeroRanges_bounds (fmt : Format) (w : Bool) :
    ∀ r ∈ fmt.zeroRanges w, 5 < r.2 ∧ r.2 ≤ r.1 ∧ r.1 < 48 := by
  cases fmt <;> cases w <;> decide

/-- With S cleared bits 63:48 must be zero, and they are; every other range is judged as with S set (R87, R89). -/
theorem find?_zeroRanges_simpleWord (fmt : Format) (w : Bool) (c : BitVec 64) :
    (zeroRanges fmt w false).find? (fun r => !rangeZero (simpleWord c) r) =
      (zeroRanges fmt w true).find? (fun r => !rangeZero c r) := by
  have hkept : ∀ r ∈ zeroRanges fmt w true, (!rangeZero (simpleWord c) r) = !rangeZero c r :=
    (forall_mem_zeroRanges fmt w true _).2 ⟨by rw [rangeZero_simpleWord c (by decide)], nofun,
      fun r hr => by rw [rangeZero_simpleWord c (zeroRanges_bounds fmt w r hr)]⟩
  rw [← List.find?_congr hkept]
  simp [zeroRanges, List.find?_cons]

/-- The simple word's instruction is the counterpart of the word's own (R83, R85). -/
theorem instrOf_simpleWord (op : Op) (w s : Bool) (c : BitVec 64) :
    instrOf op w false (simpleWord c) = Machine.counterpart (instrOf op w s c) := by
  cases op <;> cases w <;> cases s <;> simp [instrOf, Machine.counterpart]

/-- The simple word of a word with S = 1 is refused for the same reason, or decodes to the counterpart (R85, R89). -/
theorem decode_simpleWord {c : BitVec 64} (hs : fieldS c = true) :
    decode (simpleWord c) = (decode c).map Machine.counterpart := by
  rw [decode, decode, fieldOp_simpleWord, fieldW_simpleWord, fieldS_simpleWord, hs]
  cases opOf (fieldOp c) with
  | none => rfl
  | some op =>
    simp only [find?_zeroRanges_simpleWord]
    cases (zeroRanges op.format (fieldW c) true).find? (fun r => !rangeZero c r) with
    | some r => rfl
    | none => exact congrArg Except.ok (instrOf_simpleWord op (fieldW c) true c)

namespace Machine

/-! ## The step -/

/-- A word with S = 1 does in every state what its simple word does (R170). -/
theorem step_issue_simpleWord (s : State) {c : BitVec 64} (hs : fieldS c = true) :
    step (s.issue (simpleWord c)) = step (s.issue c) := by
  have hdecode := decode_simpleWord hs
  cases hd : decode c with
  | ok i =>
    rw [hd] at hdecode
    rw [step_legal (issue_cmd c s) hd, step_legal (issue_cmd _ s) hdecode, exec_issue, exec_issue, exec_counterpart i]
  | error e =>
    rw [hd] at hdecode
    rw [step_illegal (issue_cmd c s) hd, step_illegal (issue_cmd _ s) hdecode]
    rfl

/-- A word with S = 1 is legal exactly when its simple word is (R170). -/
theorem legal_simpleWord_iff {c : BitVec 64} (hs : fieldS c = true) :
    (∃ i, decode (simpleWord c) = .ok i) ↔ ∃ i, decode c = .ok i := by
  rw [decode_simpleWord hs]
  cases decode c <;> simp [Except.map]

/-- Settles O18: the two words decode to an X-form and its counterpart, or are refused alike. -/
theorem shimWordsActAsTheirCounterparts : Obligations.ShimWordsActAsTheirCounterparts := fun s _ hs =>
  ⟨(step_issue_simpleWord s hs).symm, (legal_simpleWord_iff hs).symm⟩

end Machine
end Sys2Proof
end

section
/-! Completion and the illegal word: how every command ends, as STATUS says (60_exceptions.md R190, R192, R194). -/

namespace Sys2Proof.Machine

/-- The count of a result of at most 255 is not negative (R26, R192). -/
theorem statusCount_statusWord_nonneg {res : Word} (ill : Bool) (h : res.toNat ≤ 255) :
    0 ≤ statusCount (statusWord res ill) := by
  rw [statusCount_statusWord res ill (by omega)]
  exact Int.natCast_nonneg _

/-- Settles O7: a legal word ends in a finished state with a result of at most 255, an illegal one in a report. -/
theorem everyCommandCompletes : Obligations.EveryCommandCompletes := by
  intro s c hc
  cases hd : decode c with
  | ok i =>
    obtain ⟨calls, idx, res, rdata, dbuf, wacc, drawn, hexec, -, -, hres⟩ := exec_shape i s
    have hill : statusIll (statusWord res false) = true ↔ ∃ e : Illegal, Except.ok i = .error e := by simp
    exact ⟨_, (step_legal hc hd).trans hexec, rfl, statusReserved_statusWord res false,
      statusCount_statusWord_nonneg false hres, hill, rfl, rfl⟩
  | error e =>
    have hill : statusIll (statusWord 0 true) = true ↔ ∃ e', (.error e : Except Illegal Instr) = .error e' := by simp
    exact ⟨_, step_illegal hc hd, rfl, statusReserved_statusWord 0 true,
      statusCount_statusWord_nonneg true (by decide), hill, rfl, rfl⟩

/-- Settles O6: the step is the report alone, which writes STATUS and releases the host. -/
theorem illegalWordOnlySetsStatus : Obligations.IllegalWordOnlySetsStatus := fun _ _ _ hc hd =>
  ⟨_, step_illegal hc hd, statusIll_statusWord 0 true, statusRes_statusWord 0 true, statusReserved_statusWord 0 true,
    rfl, rfl⟩

end Sys2Proof.Machine
end

section
/-! Reset, waiting, and what every step keeps: the invariant over a command and over the host's turn, and the stable
read (10_state.md R26, R29, R34; 40_transport_framing.md R112; 70_reset_and_hazards.md R210, R213, R225). -/

namespace Sys2Proof.Machine

/-! ## Waiting and reset (R210) -/

/-- Settles O8: the host's turn with no input is no change. -/
theorem idleBlockWaits : Obligations.IdleBlockWaits := fun s hc hi => by
  rw [step_waiting hc, State.hostTurn, hi]

/-- Settles O12: the step is the reset input, which takes all but the neighbours' fields from the reset state. -/
theorem resetBetweenCommands : Obligations.ResetBetweenCommands := fun _ _ hc hi =>
  ⟨_, step_input hc hi, rfl, rfl, rfl, rfl, rfl, rfl, rfl, rfl, rfl, rfl, rfl⟩

/-! ## The stable read (R225) -/

/-- RDATA after RDB is the octet answered, zero-extended (R135). -/
theorem rdata_apply_rdb (s : State) (a : Octet) :
    ((effect s (.rdb a)).apply s).rdata = zext16 (s.answerAt 1) := rfl

/-- The calls of WRB are its write frame (R137). -/
theorem trace_apply_wrb (s : State) (a v : Octet) :
    ((effect s (.wrb a v)).apply s).trace = s.trace ++ s.writeFrame 0 a [v] := rfl

/-- Settles O47: WRB sends the low octet of RDATA, which is the octet answered, and RDATA is a function of the
answer. -/
theorem octetReadWriteReadIsStable : Obligations.OctetReadWriteReadIsStable := by
  intro s a
  have hcaptured : ((effect s (.rdb a)).apply s).rdata.extractLsb' 0 8 = s.answerAt 1 := loOctet_zext16 (s.answerAt 1)
  refine ⟨_, _, _, exec_eq_apply_effect s _, exec_eq_apply_effect _ _, exec_eq_apply_effect _ _,
    rdata_apply_rdb s a, ?sent, fun hanswer => ?again⟩
  case sent => rw [trace_apply_wrb, hcaptured]
  case again => exact (rdata_apply_rdb ..).trans (congrArg zext16 hanswer)

/-! ## What the invariant is about -/

/-- The invariant speaks of PHASE, the frame record, the calls, STATUS and IDX only. -/
theorem Inv.of_fields_eq {s t : State} (h : Inv s) (hphase : t.phase = s.phase) (hframeNo : t.frameNo = s.frameNo)
    (htrace : t.trace = s.trace) (hstatus : t.status = s.status) (hidx : t.idx = s.idx) : Inv t where
  idle := hphase.trans h.idle
  firstFrame := hframeNo.trans h.firstFrame
  frames := htrace ▸ h.frames
  lines line := by rw [State.lineActive, htrace]; exact h.lines line
  reserved := hstatus ▸ h.reserved
  count := hstatus ▸ h.count
  illegal := hstatus ▸ h.illegal
  index := hidx ▸ h.index

/-! ## A command (R112, R213, R88) -/

/-- The frames of a legal command follow whole frames and leave every line inactive, and its result and IDX are at
most 255. -/
theorem Inv.finished {s : State} (h : Inv s) {n f p idx : Nat} {calls : List Call} {res : Word}
    (hframes : IsFrames s f p calls) (hidx : idx ≤ 255) (hres : res.toNat ≤ 255) (rdata : Word)
    (dbuf : Vector Word 256) (wacc : Word) (drawn : Nat) :
    Inv (s.finished n calls idx res rdata dbuf wacc drawn) where
  idle := rfl
  firstFrame := rfl
  frames := wholeFrames_append h.frames (wholeFrames_isFrames hframes)
  lines line := by
    have hbefore : lineActiveFrom line false s.trace = false := h.lines line
    exact (lineActiveFrom_append ..).trans (by rw [hbefore, lineActiveFrom_isFrames line hframes])
  reserved := statusReserved_statusWord res false
  count := statusCount_statusWord_nonneg false hres
  illegal hill := absurd ((statusIll_statusWord res false).symm.trans hill) Bool.false_ne_true
  index := hidx

/-- An illegal word writes STATUS with RES = 0 and makes no call (R194). -/
theorem Inv.illegalCommand {s : State} (h : Inv s) : Inv (illegalCommand s) where
  idle := h.idle
  firstFrame := h.firstFrame
  frames := h.frames
  lines := h.lines
  reserved := statusReserved_statusWord 0 true
  count := statusCount_statusWord_nonneg true (by decide)
  illegal _ := statusRes_statusWord 0 true
  index := h.index

/-! ## The host's turn (R35, R210) -/

theorem Inv.hostWrite {s : State} (h : Inv s) (n : Nat) (v : BitVec 64) : Inv (s.hostWrite n v) := by
  unfold State.hostWrite
  split_ifs <;> exact h.of_fields_eq rfl rfl rfl rfl rfl

/-- A reset keeps the calls made, and gives the rest of the invariant the values of the reset state but for IDX, which
is an unspecified octet again. -/
theorem Inv.applyReset {s : State} (h : Inv s) : Inv s.applyReset where
  idle := rfl
  firstFrame := rfl
  frames := h.frames
  lines := h.lines
  reserved := resetMeetsTheInvariant.reserved
  count := resetMeetsTheInvariant.count
  illegal := resetMeetsTheInvariant.illegal
  index := Nat.le_of_lt_succ (Config.idxAtReset (s.draws + 1)).isLt

theorem Inv.applyInput {s : State} (h : Inv s) : ∀ x : HostInput, Inv (s.applyInput x)
  | .read _ => h.of_fields_eq rfl rfl rfl rfl rfl
  | .write n v => h.hostWrite n v
  | .reset => h.applyReset

/-- Settles O13: a step is a legal command, an illegal word, an input of the host, or no change. -/
theorem everyStepKeepsTheInvariant : Obligations.EveryStepKeepsTheInvariant := by
  intro s t hinv h
  cases hc : s.cmd with
  | some c =>
    cases hd : decode c with
    | ok i =>
      obtain ⟨calls, idx, res, rdata, dbuf, wacc, drawn, hexec, hframes, hidx, hres⟩ := exec_shape i s
      obtain rfl := Host.Outcome.next.inj (((step_legal hc hd).trans hexec).symm.trans h)
      exact hinv.finished hframes hidx hres rdata dbuf wacc drawn
    | error e => rw [eq_illegalCommand_of_step hc hd h]; exact hinv.illegalCommand
  | none =>
    cases hi : s.inputs with
    | nil =>
      obtain rfl := Host.Outcome.next.inj ((idleBlockWaits s hc hi).symm.trans h)
      exact hinv
    | cons x rest =>
      have hwaiting : Inv { s with inputs := rest } := hinv.of_fields_eq rfl rfl rfl rfl rfl
      obtain rfl := Host.Outcome.next.inj ((step_input hc hi).symm.trans h)
      exact hwaiting.applyInput x

end Sys2Proof.Machine
end

section
/-! Words of the spec, decoded: a legal word is the encoding of its instruction, and an illegal one has no operation or
a range that must be zero and is not (30_encoding.md R87, R89). -/

namespace Sys2Proof

/-- The encoding of a well-formed instruction, written out as a word, decodes to it. -/
theorem decode_of_encode_eq {c : BitVec 64} {i : Instr} (hi : i.wellFormed = true) (hc : encode i = c) :
    decode c = .ok i := hc ▸ decode_encode i hi

theorem decode_eq_noOperation {c : BitVec 64} (hop : opOf (fieldOp c) = none) : decode c = .error .noOperation := by
  simp only [decode, hop]

/-- An illegal word is rejected by the first of its format's must-be-zero ranges that is not zero. -/
theorem decode_eq_mustBeZero {c : BitVec 64} (op : Op) {hi lo : Nat} (hop : opOf (fieldOp c) = some op)
    (hr : (zeroRanges op.format (fieldW c) (fieldS c)).find? (fun r => !rangeZero c r) = some (hi, lo)) :
    decode c = .error (.mustBeZero hi lo) := by
  simp only [decode, hop, hr]

/-- Settles O4: the legal words are the encodings of their instructions; of the illegal ones, the first has OP = 0, and
each of the others a first range that is not zero: bits 7:6, bits 63:48 with S = 0, bits 47:40 of an octet write. -/
theorem specExampleWordsDecode : Obligations.SpecExampleWordsDecode := by
  refine ⟨?_, ?_, ?_, ?_, ?_, ?_, ?_, ?_, ?_, ?_, ?zeroWord, ?reserved, ?deviceAddress, ?wideValue⟩
  case zeroWord => exact decode_eq_noOperation rfl
  case reserved => exact decode_eq_mustBeZero .rda rfl (by decide)
  case deviceAddress => exact decode_eq_mustBeZero .rda rfl (by decide)
  case wideValue => exact decode_eq_mustBeZero .wrbits rfl (by decide)
  all_goals exact decode_of_encode_eq (by decide) (by decide)

end Sys2Proof
end
